-- ==== Sys2Proof/Word.lean ====
section
/-! DEFINITION. The words of the TBE core: bytes, the fields of a command word (30_encoding.md R61) and a chunk of the
bit-chunk iterator (40_chunk_iterator.md R80). -/

namespace Sys2Proof

/-- One byte, the unit of every transfer (20_memory.md R50). -/
abbrev Byte := BitVec 8

/-- The field `sz` of a command: a bit count, or the `k` of a descriptor (30_encoding.md R61). -/
abbrev Size := BitVec 8

/-- A 64-bit operand field `a` or `b` of a command, or the `data` field of a response (30_encoding.md R61, R66). -/
abbrev Data := BitVec 64

/-- One command word: 140 bits, bit 0 the least significant (30_encoding.md R61). -/
abbrev CmdWord := BitVec 140

/-- One pair of the bit-chunk iterator: the chunk covers the bits `offset` to `offset + chunkSize - 1` of a value
(40_chunk_iterator.md R80). Both are counts. -/
structure Chunk where
  offset : Nat
  chunkSize : Nat
deriving DecidableEq, Repr

end Sys2Proof
end

