-- ==== Sys2Proof/Config.lean ====
section
/-! DEFINITION. What one instance of the core fixes (00_scope.md R6, R7), and the free values: the values the spec leaves
open (10_state.md R23, R27). -/

namespace Sys2Proof

/-- The parameter `W`, the width of a bound `n`, of a threshold `u` and of a TBE value: one of the four widths of
00_scope.md R6. -/
inductive Width where
  | w8
  | w16
  | w32
  | w64
deriving DecidableEq, Repr

/-- `W` as a number of bits (00_scope.md R6). -/
def Width.bits : Width → Nat
  | .w8 => 8
  | .w16 => 16
  | .w32 => 32
  | .w64 => 64

/-- The two build-time numbers of 00_scope.md R7: `W`, and `IW`, the width in bits of the opaque failure information. One
hardware instance has one value of each. The model carries them in `State`, where no step changes them, so that a statement
about every state is a statement about every instance. -/
structure Params where
  width : Width
  infoWidth : Nat
deriving DecidableEq, Repr

/-- The reference values of 00_scope.md R7: `W = 32`, `IW = 8`. DESIGN CHOICE for `State.reset` (unsafe, log 1 and log 2). -/
def Params.reference : Params := { width := .w32, infoWidth := 8 }

/-- FREE VALUE: what the 8-bit register `buf` of a unit holds after the I/O failure with the given number; 10_state.md R23
and R27 leave it unspecified (safe, log 7). -/
opaque Config.freeBuf : Nat → Byte

/-- FREE VALUE: what the 3-bit register `pend` of a unit holds after the I/O failure with the given number; 10_state.md R23
and R27 leave it unspecified (safe, log 7). -/
opaque Config.freePend : Nat → BitVec 3

end Sys2Proof
end

