-- ==== Sys2Proof/Syntax.lean ====
section
/-! DEFINITION. The thirteen commands (30_encoding.md R63), one constructor per row of spec/opcode_table.json. -/

namespace Sys2Proof

/-- A command with its operands (30_encoding.md R62), each as wide as its field of the command word allows: the type widths
8 and 32 are in the types, the width `W` of `n`, `u` and a TBE value is checked by `Instr.wellFormed`. The fields marked
"unused" in R62 have no place here: a word that sets a bit of one is no command (R65). -/
inductive Instr where
  /-- `BW.WRITE value, size` (41_bit_writer.md R93) -/
  | bwWrite (value : Byte) (size : Size)
  /-- `BW.WRITE32 value, size` (41_bit_writer.md R95) -/
  | bwWrite32 (value : BitVec 32) (size : Size)
  /-- `BW.CLOSE` (41_bit_writer.md R98) -/
  | bwClose
  /-- `BR.READ size -> r` (42_bit_reader.md R113) -/
  | brRead (size : Size)
  /-- `BR.READ32 size -> r` (42_bit_reader.md R115) -/
  | brRead32 (size : Size)
  /-- `BR.CLOSE` (42_bit_reader.md R118) -/
  | brClose
  /-- `TBE.DESC n -> (k, u)` (43_tbe.md R136) -/
  | tbeDesc (n : Data)
  /-- `TBE.WRITE k, u, value` (43_tbe.md R142) -/
  | tbeWrite (k : Size) (u value : Data)
  /-- `TBE.READ k, u -> value` (43_tbe.md R146) -/
  | tbeRead (k : Size) (u : Data)
  /-- `CHUNK size, index -> (valid, offset, chunkSize)` (40_chunk_iterator.md R83) -/
  | chunk (size index : Size)
  /-- `STATUS -> s` (44_system.md R160) -/
  | status
  /-- `BW.INIT` (41_bit_writer.md R100) -/
  | bwInit
  /-- `BR.INIT` (42_bit_reader.md R119) -/
  | brInit
deriving DecidableEq, Repr

end Sys2Proof
end

