-- ==== Sys2Proof/WellFormed.lean ====
section
/-! DEFINITION. Which commands an instance of width `W` can be given: the operands of type `T` fit `W` bits (30_encoding.md
R62, R65). A command that is not well formed has no command word without a reserved bit set. -/

namespace Sys2Proof

/-- An operand of type `T` (a bound, a threshold or a TBE value) fits the width `W` (30_encoding.md R62). -/
def fitsWidth (W : Width) (x : Data) : Bool := decide (x.toNat < 2 ^ W.bits)

/-- Every operand fits its type width: `a[63:W]` and `b[63:W]` are zero where the command uses the field (30_encoding.md
R65). The other operands fit by their types; `sz` has no reserved bits. -/
def Instr.wellFormed (W : Width) : Instr → Bool
  | .bwWrite _ _ => true
  | .bwWrite32 _ _ => true
  | .bwClose => true
  | .brRead _ => true
  | .brRead32 _ => true
  | .brClose => true
  | .tbeDesc n => fitsWidth W n
  | .tbeWrite _ u value => fitsWidth W u && fitsWidth W value
  | .tbeRead _ u => fitsWidth W u
  | .chunk _ _ => true
  | .status => true
  | .bwInit => true
  | .brInit => true

end Sys2Proof
end

