-- ==== Sys2Proof/Decode.lean ====
section
/-! DEFINITION. Command words: the total decoder, which refuses by name, and the encoder (30_encoding.md R61 to R65, R69). -/

namespace Sys2Proof

/-- Why a word is no command. Both are answered with `ILLEGAL_CMD` (60_exceptions.md R172). -/
inductive DecodeError where
  /-- the opcode `0x0`, `0xE` or `0xF` (30_encoding.md R64) -/
  | reservedOpcode
  /-- a bit of an unused field, or above an operand's width, is 1 (30_encoding.md R65) -/
  | reservedBit
deriving DecidableEq, Repr

/-- What the decoder answers for a word. -/
inductive Decoded where
  | command (i : Instr)
  | illegal (e : DecodeError)
deriving DecidableEq, Repr

/-- The field `op = word[3:0]` (30_encoding.md R61). -/
def opField (w : CmdWord) : BitVec 4 := w.extractLsb' 0 4

/-- The field `sz = word[11:4]` (30_encoding.md R61). -/
def szField (w : CmdWord) : Size := w.extractLsb' 4 8

/-- The field `a = word[75:12]` (30_encoding.md R61). -/
def aField (w : CmdWord) : Data := w.extractLsb' 12 64

/-- The field `b = word[139:76]` (30_encoding.md R61). -/
def bField (w : CmdWord) : Data := w.extractLsb' 76 64

/-- Accept the command when the word's reserved bits are all zero (30_encoding.md R65). -/
def accept (reservedZero : Bool) (i : Instr) : Decoded :=
  if reservedZero then .command i else .illegal .reservedBit

/-- The decoder of an instance of width `W`: total on all `2^140` words (30_encoding.md R69). The opcode selects the command
(R63); every reserved bit must be zero (R65); the operands are the low bits of their fields (R62). -/
def decode (W : Width) (w : CmdWord) : Decoded :=
  let sz := szField w
  let a := aField w
  let b := bField w
  match (opField w).toNat with
  | 0x1 => accept (b == 0 && decide (a.toNat < 2 ^ 8)) (.bwWrite (a.setWidth 8) sz)
  | 0x2 => accept (b == 0 && decide (a.toNat < 2 ^ 32)) (.bwWrite32 (a.setWidth 32) sz)
  | 0x3 => accept (b == 0 && a == 0 && sz == 0) .bwClose
  | 0x4 => accept (b == 0 && a == 0) (.brRead sz)
  | 0x5 => accept (b == 0 && a == 0) (.brRead32 sz)
  | 0x6 => accept (b == 0 && a == 0 && sz == 0) .brClose
  | 0x7 => accept (b == 0 && fitsWidth W a && sz == 0) (.tbeDesc a)
  | 0x8 => accept (fitsWidth W b && fitsWidth W a) (.tbeWrite sz b a)
  | 0x9 => accept (fitsWidth W b && a == 0) (.tbeRead sz b)
  | 0xA => accept (b == 0 && decide (a.toNat < 2 ^ 8)) (.chunk sz (a.setWidth 8))
  | 0xB => accept (b == 0 && a == 0 && sz == 0) .status
  | 0xC => accept (b == 0 && a == 0 && sz == 0) .bwInit
  | 0xD => accept (b == 0 && a == 0 && sz == 0) .brInit
  | _ => .illegal .reservedOpcode

/-- The four fields of a word put together: `op + (sz << 4) + (a << 12) + (b << 76)` (30_encoding.md R61). -/
def packWord (op : BitVec 4) (sz : Size) (a b : Data) : CmdWord := b ++ a ++ sz ++ op

/-- The command word of a command (30_encoding.md R61 to R63, R72): every unused field and every bit above an operand's
width is zero. -/
def encode : Instr → CmdWord
  | .bwWrite value size => packWord 0x1 size (value.setWidth 64) 0
  | .bwWrite32 value size => packWord 0x2 size (value.setWidth 64) 0
  | .bwClose => packWord 0x3 0 0 0
  | .brRead size => packWord 0x4 size 0 0
  | .brRead32 size => packWord 0x5 size 0 0
  | .brClose => packWord 0x6 0 0 0
  | .tbeDesc n => packWord 0x7 0 n 0
  | .tbeWrite k u value => packWord 0x8 k value u
  | .tbeRead k u => packWord 0x9 k 0 u
  | .chunk size index => packWord 0xA size (index.setWidth 64) 0
  | .status => packWord 0xB 0 0 0
  | .bwInit => packWord 0xC 0 0 0
  | .brInit => packWord 0xD 0 0 0

/-- The 140-bit word of `nbits` table bits `w`, every bit above `nbits` zero. The command port is 140 bits wide: a bit above
bit 139 does not exist (30_encoding.md R61; log 11). -/
def tableWord (nbits w : Nat) : CmdWord := BitVec.ofNat 140 (w % 2 ^ nbits)

/-- The command a decoder's answer holds, if it holds one. -/
def Decoded.toOption : Decoded → Option Instr
  | .command i => some i
  | .illegal _ => none

/-- The command that the instance of reference width (`W = 32`, log 1) decodes from the table bits `w`. -/
def decodeTableWord (nbits w : Nat) : Option Instr :=
  (decode Params.reference.width (tableWord nbits w)).toOption

end Sys2Proof
end

