-- ==== Sys2Proof/Machine/State.lean ====
section
/-! DEFINITION. The state of the machine: the six registers of the core (10_state.md R20 to R27), the two byte streams with
the environment's answers (20_memory.md R40 to R43), the host's side of the command interface (30_encoding.md R60, R66),
and the model's counter of free values. Plain data throughout. -/

namespace Sys2Proof.Machine

/-- The two ports of the core to its environment (20_memory.md R40). -/
inductive Port where
  /-- the byte sink, written by the writer unit -/
  | sink
  /-- the byte source, read by the reader unit -/
  | source
deriving DecidableEq, Repr

/-- The nine outcomes of a command (30_encoding.md R67). Codes 9 to 15 are never produced and have no constructor. -/
inductive Status where
  | ok
  | illegalCmd
  | unitFaulted
  | sizeRange
  | badDesc
  | badBound
  | valueRange
  | sinkFail
  | sourceFail
deriving DecidableEq, Repr

/-- The fields of a response word (30_encoding.md R66). `ioinfo` is the environment's opaque failure information, `IW` bits,
copied unchanged; the model holds it as a natural number (log 2). -/
structure Response where
  status : Status
  rk : BitVec 8
  data : Data
  ioinfo : Nat
deriving DecidableEq, Repr

/-- The result fields of a command that ends with `OK` (30_encoding.md R68). -/
structure Result where
  rk : BitVec 8
  data : Data
deriving DecidableEq, Repr

/-- The sink's answer to one byte (20_memory.md R42), or no answer at all (60_exceptions.md R187; log 9). -/
inductive SinkAnswer where
  /-- the sink accepted exactly one byte -/
  | accept
  /-- the transfer failed, with this failure information -/
  | fail (info : Nat)
  /-- the request is never answered: the command waits until the hardware is reset -/
  | silent
deriving DecidableEq, Repr

/-- `SinkBehaviour` (00_scope.md R7): the answers to the coming requests, in order, and the answer to every request after
them (log 3). -/
structure Sink where
  script : List SinkAnswer
  rest : SinkAnswer
deriving DecidableEq, Repr

/-- The source's answer to one request (20_memory.md R43), or no answer at all (60_exceptions.md R187; log 9). -/
inductive SourceAnswer where
  /-- the next byte of the source -/
  | byte (b : Byte)
  /-- the transfer failed (end of stream, short read, device fault), with this failure information -/
  | fail (info : Nat)
  /-- the request is never answered: the command waits until the hardware is reset -/
  | silent
deriving DecidableEq, Repr

/-- `SourceBehaviour` (00_scope.md R7): the answers to the coming requests, in order, and the answer to every request after
them. The reference oracle of a finite byte list (20_memory.md R43) is the list of its bytes, then a failure (log 4). -/
structure Source where
  script : List SourceAnswer
  rest : SourceAnswer
deriving DecidableEq, Repr

/-- What the outside world does at the host's side of the core (30_encoding.md R60; 70_reset_and_hazards.md R200; log 5). -/
inductive HostEvent where
  /-- the host presents a command word and takes the response -/
  | command (w : CmdWord)
  /-- hardware reset, with no command in execution or in the middle of one that waits for an answer -/
  | reset
  /-- the host presents a command word, and hardware reset arrives before the response is given, when every transfer of the
  command has been made (log 10) -/
  | abandoned (w : CmdWord)
deriving DecidableEq, Repr

/-- The three registers of a unit: the writer's (10_state.md R20, R21, R23) or the reader's (R24, R25, R27). -/
structure UnitRegs where
  /-- the bits on their way, right-aligned, the oldest in bit 0 (R20, R24) -/
  buf : Byte
  /-- how many bits of `buf` are valid; the transient values up to 15 (R21, R25; 90_conflicts.md C7) are never stored -/
  pend : BitVec 3
  /-- the sticky error flag (R23, R27) -/
  err : Bool
deriving DecidableEq, Repr

/-- A unit as reset and its INIT command leave it (10_state.md R37). -/
def UnitRegs.fresh : UnitRegs := { buf := 0, pend := 0, err := false }

/-- The whole state (INVENTORY.md, State). -/
structure State where
  /-- `W` and `IW` (00_scope.md R7); no step changes them -/
  params : Params
  /-- the writer unit: `BW.buf`, `BW.pend`, `BW.err` -/
  bw : UnitRegs
  /-- the reader unit: `BR.buf`, `BR.pend`, `BR.err` -/
  br : UnitRegs
  /-- `SNK`, the bytes the sink has accepted, in order (20_memory.md R40) -/
  snk : List Byte
  /-- the source position, how many bytes the source has delivered (20_memory.md R40, R43) -/
  spos : Nat
  /-- `SinkBehaviour`, from here on -/
  sink : Sink
  /-- `SourceBehaviour`, from here on -/
  source : Source
  /-- what the host does from here on, in order -/
  host : List HostEvent
  /-- the responses given so far, in order (70_reset_and_hazards.md R216) -/
  responses : List Response
  /-- the port a command in execution waits on for ever, if one does (60_exceptions.md R187) -/
  waiting : Option Port
  /-- the MODEL's own: how many free values have been drawn (log 7, log 8) -/
  freeCount : Nat
deriving DecidableEq, Repr

/-- Why a run stops. -/
inductive Fault where
  /-- Raised by `step` alone, when the command in execution waits on a port that never answers its request and no hardware
  reset comes: the run is stuck, with no response and no further command (60_exceptions.md R187; 93_implementation_defined.md
  U9). Safe: the hardware does not go on either. -/
  | hang (p : Port)
deriving DecidableEq, Repr

/-- Why the model has no meaning for a command. -/
inductive Refusal where
  /-- Raised by an arm of `exec` whose command has no meaning yet; no arm is left in this case. Safe: the model stops where
  the hardware goes on. -/
  | notModelled (mnemonic : String)
deriving DecidableEq, Repr

/-- How a procedure inside a command ends. -/
inductive Res (α : Type) where
  /-- it returns normally -/
  | ok (a : α) (s : State)
  /-- `raise st(info)`: the command ends here with a fault response (60_exceptions.md R170) -/
  | raise (st : Status) (info : Nat) (s : State)
  /-- its transfer is never answered: the command does not end (60_exceptions.md R187) -/
  | hang (p : Port) (s : State)
deriving Repr

/-- What the core finds at its command interface. -/
inductive Fetch where
  /-- hardware reset; the state with the event taken -/
  | reset (s : State)
  /-- a command in execution waits for ever on a port -/
  | stuck (p : Port)
  /-- nothing: the core waits for a command (70_reset_and_hazards.md R201) -/
  | idle
  /-- a command word; the state with the event taken -/
  | word (w : CmdWord) (s : State)
  /-- a command word whose response a hardware reset forestalls; the state with the event taken -/
  | cutWord (w : CmdWord) (s : State)
deriving Repr

/-- The machine right after reset, at the start of a run: the six registers zero (10_state.md R37), `SNK` empty and the
source position 0 (20_memory.md R40), no response given, no command in execution (70_reset_and_hazards.md R201). The
parameters and the environment have the reference values of 00_scope.md R7 (DESIGN CHOICE, log 1 to log 4: `W = 32`,
`IW = 8`, a sink that always accepts, a source with no byte that fails with information 1), the host does nothing (DESIGN
CHOICE, log 5), and no free value has been drawn (DESIGN CHOICE, log 8). -/
def State.reset : State where
  params := Params.reference
  bw := UnitRegs.fresh
  br := UnitRegs.fresh
  snk := []
  spos := 0
  sink := { script := [], rest := .accept }
  source := { script := [], rest := .fail 1 }
  host := []
  responses := []
  waiting := none
  freeCount := 0

end Sys2Proof.Machine
end

