-- ==== Sys2Proof/Machine/Flags.lean ====
section
/-! DEFINITION. The only flags of the core: the sticky error flags `BW.err` and `BR.err` (10_state.md R23, R27, R33). They
are set by a failed transfer (60_exceptions.md R176), read by the gate of a unit's commands (R177), and cleared by INIT and
reset (R185). -/

namespace Sys2Proof.Machine

/-- A unit after its transfer failed: the flag set, the two data registers unspecified (60_exceptions.md R176; free values,
log 7). The number tells one failure from another. -/
def UnitRegs.failed (draw : Nat) : UnitRegs :=
  { buf := Config.freeBuf draw, pend := Config.freePend draw, err := true }

/-- The sink failed a transfer: `BW.err <- 1`, `BW.buf` and `BW.pend` unspecified (20_memory.md R42; 10_state.md R23). -/
def failWriter (s : State) : State :=
  { s with bw := UnitRegs.failed s.freeCount, freeCount := s.freeCount + 1 }

/-- The source failed a transfer: `BR.err <- 1`, `BR.buf` and `BR.pend` unspecified (20_memory.md R43; 10_state.md R27). -/
def failReader (s : State) : State :=
  { s with br := UnitRegs.failed s.freeCount, freeCount := s.freeCount + 1 }

/-- The gate of the writer's commands: `BW.err = 1` (60_exceptions.md R177). -/
def writerFaulted (s : State) : Bool := s.bw.err

/-- The gate of the reader's commands: `BR.err = 1` (60_exceptions.md R177). -/
def readerFaulted (s : State) : Bool := s.br.err

end Sys2Proof.Machine
end

