-- ==== Sys2Proof/Machine/Operands.lean ====
section
/-! DEFINITION. Operand forms and the arithmetic on operands: masks and bytes of a value (00_scope.md R10), the numeric
primitives (43_tbe.md R131, R132), descriptors (R136, R138), the two codeword classes (R142) and the bit-chunk iterator
(40_chunk_iterator.md R80). Every result is the exact natural number (43_tbe.md R133). -/

namespace Sys2Proof.Machine

/-- `mask(s) = 2^s - 1` (00_scope.md R10). -/
def mask (s : Nat) : Nat := 2 ^ s - 1

/-- `trunc_8(v >> off)`: the byte of `v` that starts at bit `off` (41_bit_writer.md R94). -/
def byteAt (v off : Nat) : Byte := BitVec.ofNat 8 (v >>> off)

/-- `floor_log2(n)`, the position of the most significant 1 bit of `n >= 1` (43_tbe.md R131). It has no value at 0 in the
spec; the one place that uses it, `forBound`, is reached only with `n >= 1`. -/
def floorLog2 (n : Nat) : Nat := Nat.log2 n

/-- `exp2(e) = 2^e`, exact also where the result does not fit `W` bits (43_tbe.md R132). -/
def exp2 (e : Nat) : Nat := 2 ^ e

/-- The size operand of `BW.WRITE` and `BR.READ` is in range (60_exceptions.md R173). -/
def sizeFits8 (size : Size) : Bool := decide (size.toNat ≤ 8)

/-- The size operand of `BW.WRITE32` and `BR.READ32` is in range (60_exceptions.md R173). -/
def sizeFits32 (size : Size) : Bool := decide (size.toNat ≤ 32)

/-- `k` of the descriptor of the bound `n >= 1` (43_tbe.md R136). -/
def descK (n : Nat) : Nat := floorLog2 n

/-- `u = 2^(k+1) - n` of the descriptor of the bound `n >= 1` (43_tbe.md R136). -/
def descU (n : Nat) : Nat := exp2 (floorLog2 n + 1) - n

/-- A valid descriptor of an instance of width `W`: `k <= W - 1` and `1 <= u <= 2^k` (43_tbe.md R138). -/
def validDescriptor (W : Width) (k u : Nat) : Bool := decide (k ≤ W.bits - 1 ∧ u ≠ 0 ∧ u ≤ exp2 k)

/-- `BoundOf(k, u) = 2^(k+1) - u`, the bound of a valid descriptor (43_tbe.md R138). -/
def boundOf (k u : Nat) : Nat := exp2 (k + 1) - u

/-- The range check of `TBE.WRITE`: `value >= n`, tested as `value + u >= 2^(k+1)` (43_tbe.md R142; 60_exceptions.md R178). -/
def valueTooLarge (k u value : Nat) : Bool := decide (exp2 (k + 1) ≤ value + u)

/-- The loop of `Chunks` from bit `off` on (40_chunk_iterator.md R80), at most `fuel` times round. -/
def chunksFrom : (fuel size off : Nat) → List Chunk
  | 0, _, _ => []
  | fuel + 1, size, off =>
    if size - off ≥ 8 then { offset := off, chunkSize := 8 } :: chunksFrom fuel size (off + 8)
    else if size - off > 0 then [{ offset := off, chunkSize := size - off }]
    else []

/-- `Chunks(size)` (40_chunk_iterator.md R80). The loop goes round at most `size / 8 + 1` times. -/
def chunks (size : Nat) : List Chunk := chunksFrom (size / 8 + 1) size 0

end Sys2Proof.Machine
end

