-- ==== Sys2Proof/Machine/Ops.lean ====
section
/-! DEFINITION. The named operations: how a command ends (60_exceptions.md R170, R182, R187), the two stream primitives
(20_memory.md R42, R43), the writer's and the reader's procedures (41_bit_writer.md R91, R94; 42_bit_reader.md R111, R114)
and hardware reset (70_reset_and_hazards.md R200). -/

namespace Sys2Proof.Machine

/-! ## The end of a command -/

/-- `respond(fields)`: the command ends with status `OK` (30_encoding.md R66). -/
def respond (r : Result) (s : State) : State :=
  { s with responses := s.responses ++ [{ status := .ok, rk := r.rk, data := r.data, ioinfo := 0 }] }

/-- `raise <FAULT>(info)`, taking an exception: the command ends with a fault response, `data` and `rk` zero; what was done
before stays; nothing is saved, there is no handler, and the core is ready for the next command (60_exceptions.md R170,
R182). Its counterpart, a return, does not exist (R183). -/
def raiseFault (st : Status) (info : Nat) (s : State) : State :=
  { s with responses := s.responses ++ [{ status := st, rk := 0, data := 0, ioinfo := info }] }

/-- The command does not end: it waits on a port that never answers (60_exceptions.md R187). What was done before stays. -/
def suspend (p : Port) (s : State) : State := { s with waiting := some p }

/-- A command word that is no command: `ILLEGAL_CMD` and nothing else (60_exceptions.md R172), for either reason. -/
def illegalCommand (s : State) : State := raiseFault .illegalCmd 0 s

/-- The result fields of a command that returns nothing: `rk = 0`, `data = 0` (30_encoding.md R68). -/
def noResult : Result := { rk := 0, data := 0 }

/-- A result in `data` alone, zero-extended to 64 bits (30_encoding.md R68). -/
def dataResult (v : Nat) : Result := { rk := 0, data := BitVec.ofNat 64 v }

/-- One procedure after another: a fault or a wait of the first ends both. -/
def Res.bind {α β : Type} (r : Res α) (f : α → State → Res β) : Res β :=
  match r with
  | .ok a s => f a s
  | .raise st info s => .raise st info s
  | .hang p s => .hang p s

/-- End the command as its procedure ended, with the result fields computed from the returned value. -/
def finish {α : Type} (r : Res α) (result : α → Result) : Host.Outcome State Fault Refusal :=
  match r with
  | .ok a s => .next (respond (result a) s)
  | .raise st info s => .next (raiseFault st info s)
  | .hang p s => .next (suspend p s)

/-! ## The byte streams -/

/-- The sink's answer to the coming request (00_scope.md R7). -/
def Sink.answer (k : Sink) : SinkAnswer := k.script.headD k.rest

/-- The sink after it has answered one request. -/
def Sink.advance (k : Sink) : Sink := { k with script := k.script.tail }

/-- The source's answer to the coming request (00_scope.md R7). -/
def Source.answer (k : Source) : SourceAnswer := k.script.headD k.rest

/-- The source after it has answered one request. -/
def Source.advance (k : Source) : Source := { k with script := k.script.tail }

/-- `SinkPut(b)` (20_memory.md R42): an accepted byte is appended to `SNK`; a failed transfer moves no byte, faults the
writer unit and ends the command. -/
def sinkPut (b : Byte) (s : State) : Res Unit :=
  let t := { s with sink := s.sink.advance }
  match s.sink.answer with
  | .accept => .ok () { t with snk := s.snk ++ [b] }
  | .fail info => .raise .sinkFail info (failWriter t)
  | .silent => .hang .sink t

/-- `SourceGet()` (20_memory.md R43): a delivered byte moves the source position by one; a failed transfer faults the reader
unit and ends the command. -/
def sourceGet (s : State) : Res Byte :=
  let t := { s with source := s.source.advance }
  match s.source.answer with
  | .byte b => .ok b { t with spos := s.spos + 1 }
  | .fail info => .raise .sourceFail info (failReader t)
  | .silent => .hang .source t

/-! ## The writer unit -/

/-- Set `BW.buf` to the low 8 bits of `buf` and `BW.pend` to `pend`, at most 7 where it is used (10_state.md R21). -/
def setWriter (buf pend : Nat) (s : State) : State :=
  { s with bw := { s.bw with buf := BitVec.ofNat 8 buf, pend := BitVec.ofNat 3 pend } }

/-- `Write8(v, s)`, with `size` in `[0, 8]` (41_bit_writer.md R91). -/
def write8 (v : Byte) (size : Nat) (s : State) : Res Unit :=
  let m := v.toNat &&& mask size
  let w := s.bw.buf.toNat ||| (m <<< s.bw.pend.toNat)
  let p := s.bw.pend.toNat + size
  if p ≥ 8 then
    (sinkPut (BitVec.ofNat 8 w) s).bind fun _ t => .ok () (setWriter (w >>> 8) (p - 8) t)
  else
    .ok () (setWriter w p s)

/-- One `Write8` per chunk, in sequence order (41_bit_writer.md R94). -/
def writeChunks (v : Nat) : List Chunk → State → Res Unit
  | [], s => .ok () s
  | c :: cs, s => (write8 (byteAt v c.offset) c.chunkSize s).bind fun _ t => writeChunks v cs t

/-- `WriteBits(v, s)`: the low `size` bits of `v`, low-order chunk first (41_bit_writer.md R94). -/
def writeBits (v size : Nat) (s : State) : Res Unit := writeChunks v (chunks size) s

/-- The transfer of `BW.CLOSE`: the pending bits as one byte, if there are any (41_bit_writer.md R98). -/
def flushWriter (s : State) : Res Unit :=
  if s.bw.pend.toNat > 0 then sinkPut s.bw.buf s else .ok () s

/-! ## The reader unit -/

/-- Set `BR.buf` to the low 8 bits of `buf` and `BR.pend` to `pend`, at most 7 where it is used (10_state.md R25). -/
def setReader (buf pend : Nat) (s : State) : State :=
  { s with br := { s.br with buf := BitVec.ofNat 8 buf, pend := BitVec.ofNat 3 pend } }

/-- The end of `Read8(s)`: the low `size` bits of the combined value `c` of `p` bits are the result, the bits above them the
new buffer (42_bit_reader.md R111). -/
def takeBits (c p size : Nat) (s : State) : Res Byte :=
  .ok (BitVec.ofNat 8 (c &&& mask size)) (setReader (c >>> size) (p - size) s)

/-- `Read8(s)`, with `size` in `[0, 8]` (42_bit_reader.md R111). -/
def read8 (size : Nat) (s : State) : Res Byte :=
  let c := s.br.buf.toNat
  let p := s.br.pend.toNat
  if p < size then
    (sourceGet s).bind fun byte t => takeBits (c ||| (byte.toNat <<< p)) (p + 8) size t
  else
    takeBits c p size s

/-- One `Read8` per chunk, in sequence order, each result or-ed into `r` at its offset (42_bit_reader.md R114). -/
def readChunks (r : Nat) : List Chunk → State → Res Nat
  | [], s => .ok r s
  | c :: cs, s => (read8 c.chunkSize s).bind fun b t => readChunks (r ||| (b.toNat <<< c.offset)) cs t

/-- `ReadBits(s)`: `size` bits, low-order chunk first, as one number (42_bit_reader.md R114). -/
def readBits (size : Nat) (s : State) : Res Nat := readChunks 0 (chunks size) s

/-! ## Hardware reset -/

/-- Hardware reset (70_reset_and_hazards.md R200): the six registers to zero; a command in execution is abandoned; `SNK`, the
source position and the environment are untouched; no transfer is made and no response given. -/
def hwReset (s : State) : State :=
  { s with bw := UnitRegs.fresh, br := UnitRegs.fresh, waiting := none }

/-- A command abandoned by a hardware reset (70_reset_and_hazards.md R200), from `before` to what it would have become: it
gets no response, the transfers it made stay made, none of its remaining effects happen. -/
def abandon (before after : State) : State :=
  { hwReset after with responses := before.responses }

end Sys2Proof.Machine
end

