-- ==== Sys2Proof/Machine/Reader.lean ====
section
/-! DEFINITION. The reader unit's commands: BR.READ, BR.READ32, BR.CLOSE, BR.INIT (42_bit_reader.md). Each checks in the
order of 60_exceptions.md R179; the check of reserved bits, which comes first, is the decoder's. -/

namespace Sys2Proof.Machine

/-- `BR.READ size -> r` (42_bit_reader.md R113). -/
def execBrRead (size : Size) (s : State) : Host.Outcome State Fault Refusal :=
  if readerFaulted s then .next (raiseFault .unitFaulted 0 s)
  else if !sizeFits8 size then .next (raiseFault .sizeRange 0 s)
  else finish (read8 size.toNat s) fun r => dataResult r.toNat

/-- `BR.READ32 size -> r` (42_bit_reader.md R115). -/
def execBrRead32 (size : Size) (s : State) : Host.Outcome State Fault Refusal :=
  if readerFaulted s then .next (raiseFault .unitFaulted 0 s)
  else if !sizeFits32 size then .next (raiseFault .sizeRange 0 s)
  else finish (readBits size.toNat s) fun r => dataResult r

/-- `BR.CLOSE` (42_bit_reader.md R118): the unconsumed bits are dropped, the source is not touched. -/
def execBrClose (s : State) : Host.Outcome State Fault Refusal :=
  if readerFaulted s then .next (raiseFault .unitFaulted 0 s)
  else .next (respond noResult (setReader 0 0 s))

/-- `BR.INIT` (42_bit_reader.md R119): never refused for a faulted unit. -/
def execBrInit (s : State) : Host.Outcome State Fault Refusal :=
  .next (respond noResult { s with br := UnitRegs.fresh })

end Sys2Proof.Machine
end

