-- ==== Sys2Proof/Machine/System.lean ====
section
/-! DEFINITION. The commands of no unit: CHUNK (40_chunk_iterator.md R83) and STATUS (44_system.md R160). -/

namespace Sys2Proof.Machine

/-- The `data` field of `CHUNK`: `offset` at [7:0], `chunkSize` at [11:8], `valid` at [12] (30_encoding.md R68). -/
def chunkData (valid : Bool) (chunkSize offset : Nat) : Data :=
  (0 : BitVec 51) ++ BitVec.ofBool valid ++ BitVec.ofNat 4 chunkSize ++ BitVec.ofNat 8 offset

/-- `CHUNK size, index -> (valid, offset, chunkSize)` (40_chunk_iterator.md R83): the product `8 * index` is exact. -/
def execChunk (size index : Size) (s : State) : Host.Outcome State Fault Refusal :=
  if 8 * index.toNat < size.toNat then
    .next (respond { rk := 0, data := chunkData true (min 8 (size.toNat - 8 * index.toNat)) (8 * index.toNat) } s)
  else
    .next (respond { rk := 0, data := chunkData false 0 0 } s)

/-- The twelve bits of one unit in the status view: `err`, `pend`, `buf` from the top (10_state.md R34). -/
def unitView (r : UnitRegs) : BitVec 12 := BitVec.ofBool r.err ++ r.pend ++ r.buf

/-- The status view: the reader's twelve bits at [27:16], the writer's at [11:0], the rest 0 (10_state.md R34; 44_system.md
R160). -/
def statusView (s : State) : Data := (0 : BitVec 36) ++ unitView s.br ++ (0 : BitVec 4) ++ unitView s.bw

/-- `STATUS -> s` (44_system.md R160): the fields of a faulted unit are the unspecified values its registers hold (log 7). -/
def execStatus (s : State) : Host.Outcome State Fault Refusal :=
  .next (respond { rk := 0, data := statusView s } s)

end Sys2Proof.Machine
end

