-- ==== Sys2Proof/Machine/Tbe.lean ====
section
/-! DEFINITION. Truncated binary encoding: TBE.DESC, TBE.WRITE, TBE.READ (43_tbe.md). Each checks in the order of
60_exceptions.md R179. An operand wider than `W` bits has a reserved bit set in every word that could carry it: the decoder
refuses the word, and the meaning, given such an operand, answers what the rule's first line says (log 12). -/

namespace Sys2Proof.Machine

/-- `TBE.DESC n -> (k, u)` (43_tbe.md R136). -/
def execTbeDesc (n : Data) (s : State) : Host.Outcome State Fault Refusal :=
  if !fitsWidth s.params.width n then .next (illegalCommand s)
  else if n.toNat = 0 then .next (raiseFault .badBound 0 s)
  else .next (respond { rk := BitVec.ofNat 8 (descK n.toNat), data := BitVec.ofNat 64 (descU n.toNat) } s)

/-- The codeword of `value`: short, the `k` bits of `value`; long, with `x = value + u`, the `k` bits of `x >> 1` and then
the bit `x & 1` (43_tbe.md R142). -/
def writeCodeword (k u value : Nat) (s : State) : Res Unit :=
  if value < u then writeBits value k s
  else
    let x := value + u
    (writeBits (x >>> 1) k s).bind fun _ t => write8 (BitVec.ofNat 8 (x &&& 1)) 1 t

/-- `TBE.WRITE k, u, value` (43_tbe.md R142). -/
def execTbeWrite (k : Size) (u value : Data) (s : State) : Host.Outcome State Fault Refusal :=
  if !(fitsWidth s.params.width u && fitsWidth s.params.width value) then .next (illegalCommand s)
  else if writerFaulted s then .next (raiseFault .unitFaulted 0 s)
  else if !validDescriptor s.params.width k.toNat u.toNat then .next (raiseFault .badDesc 0 s)
  else if valueTooLarge k.toNat u.toNat value.toNat then .next (raiseFault .valueRange 0 s)
  else finish (writeCodeword k.toNat u.toNat value.toNat s) fun _ => noResult

/-- One codeword: `k` bits `v`; `v` itself if it is below `u`, else one bit `b` more, and `((v << 1) | b) - u` (43_tbe.md
R146). -/
def readCodeword (k u : Nat) (s : State) : Res Nat :=
  (readBits k s).bind fun v t =>
    if v < u then .ok v t
    else (read8 1 t).bind fun b t' => .ok (((v <<< 1) ||| b.toNat) - u) t'

/-- `TBE.READ k, u -> value` (43_tbe.md R146). -/
def execTbeRead (k : Size) (u : Data) (s : State) : Host.Outcome State Fault Refusal :=
  if !fitsWidth s.params.width u then .next (illegalCommand s)
  else if readerFaulted s then .next (raiseFault .unitFaulted 0 s)
  else if !validDescriptor s.params.width k.toNat u.toNat then .next (raiseFault .badDesc 0 s)
  else finish (readCodeword k.toNat u.toNat s) fun v => dataResult v

end Sys2Proof.Machine
end

