-- ==== Sys2Proof/Machine/Writer.lean ====
section
/-! DEFINITION. The writer unit's commands: BW.WRITE, BW.WRITE32, BW.CLOSE, BW.INIT (41_bit_writer.md). Each checks in the
order of 60_exceptions.md R179; the check of reserved bits, which comes first, is the decoder's. -/

namespace Sys2Proof.Machine

/-- `BW.WRITE value, size` (41_bit_writer.md R93). -/
def execBwWrite (value : Byte) (size : Size) (s : State) : Host.Outcome State Fault Refusal :=
  if writerFaulted s then .next (raiseFault .unitFaulted 0 s)
  else if !sizeFits8 size then .next (raiseFault .sizeRange 0 s)
  else finish (write8 value size.toNat s) fun _ => noResult

/-- `BW.WRITE32 value, size` (41_bit_writer.md R95). -/
def execBwWrite32 (value : BitVec 32) (size : Size) (s : State) : Host.Outcome State Fault Refusal :=
  if writerFaulted s then .next (raiseFault .unitFaulted 0 s)
  else if !sizeFits32 size then .next (raiseFault .sizeRange 0 s)
  else finish (writeBits value.toNat size.toNat s) fun _ => noResult

/-- `BW.CLOSE` (41_bit_writer.md R98). -/
def execBwClose (s : State) : Host.Outcome State Fault Refusal :=
  if writerFaulted s then .next (raiseFault .unitFaulted 0 s)
  else finish ((flushWriter s).bind fun _ t => .ok () (setWriter 0 0 t)) fun _ => noResult

/-- `BW.INIT` (41_bit_writer.md R100): never refused for a faulted unit. -/
def execBwInit (s : State) : Host.Outcome State Fault Refusal :=
  .next (respond noResult { s with bw := UnitRegs.fresh })

end Sys2Proof.Machine
end

