-- ==== Sys2Proof/Machine/Dispatch.lean ====
section
/-! DEFINITION. The dispatch: one arm per command, each one call of its meaning (30_encoding.md R63). -/

namespace Sys2Proof.Machine

def exec (i : Instr) (s : State) : Host.Outcome State Fault Refusal :=
  match i with
  | .bwWrite value size => Sys2Proof.Machine.execBwWrite value size s
  | .bwWrite32 value size => Sys2Proof.Machine.execBwWrite32 value size s
  | .bwClose => Sys2Proof.Machine.execBwClose s
  | .brRead size => Sys2Proof.Machine.execBrRead size s
  | .brRead32 size => Sys2Proof.Machine.execBrRead32 size s
  | .brClose => Sys2Proof.Machine.execBrClose s
  | .tbeDesc n => Sys2Proof.Machine.execTbeDesc n s
  | .tbeWrite k u value => Sys2Proof.Machine.execTbeWrite k u value s
  | .tbeRead k u => Sys2Proof.Machine.execTbeRead k u s
  | .chunk size index => Sys2Proof.Machine.execChunk size index s
  | .status => Sys2Proof.Machine.execStatus s
  | .bwInit => Sys2Proof.Machine.execBwInit s
  | .brInit => Sys2Proof.Machine.execBrInit s

end Sys2Proof.Machine
end

