-- ==== Sys2Proof/Machine/Fetch.lean ====
section
/-! DEFINITION. The command interface (30_encoding.md R60; 70_reset_and_hazards.md R200, R201, R205): what the core takes
next. -/

namespace Sys2Proof.Machine

/-- What the core finds at its command interface. Hardware reset is taken at any time (70_reset_and_hazards.md R200). A core
whose command waits for ever takes no further command (60_exceptions.md R187). Else the next command word is taken, in the
host's order, none dropped, repeated or reordered (30_encoding.md R60). -/
def fetch (s : State) : Fetch :=
  match s.host, s.waiting with
  | .reset :: rest, _ => .reset { s with host := rest }
  | _, some p => .stuck p
  | [], none => .idle
  | .command w :: rest, none => .word w { s with host := rest }
  | .abandoned w :: rest, none => .cutWord w { s with host := rest }

end Sys2Proof.Machine
end

