-- ==== Sys2Proof/Machine/Response.lean ====
section
/-! DEFINITION. The response word: status codes and layout (30_encoding.md R66, R67). -/

namespace Sys2Proof.Machine

/-- The status codes (30_encoding.md R67). -/
def Status.code : Status → Nat
  | .ok => 0
  | .illegalCmd => 1
  | .unitFaulted => 2
  | .sizeRange => 3
  | .badDesc => 4
  | .badBound => 5
  | .valueRange => 6
  | .sinkFail => 7
  | .sourceFail => 8

/-- The response word of an instance whose failure information has `iw` bits: `status` at [3:0], `rk` at [11:4], `data` at
[75:12], `ioinfo` above (30_encoding.md R66). -/
def Response.word (iw : Nat) (r : Response) : BitVec (76 + iw) :=
  BitVec.ofNat (76 + iw) (r.status.code + (r.rk.toNat <<< 4) + (r.data.toNat <<< 12) + (r.ioinfo <<< 76))

end Sys2Proof.Machine
end

