-- ==== Sys2Proof/Machine/Step.lean ====
section
/-! DEFINITION. One step: one command from its word to its response (30_encoding.md R60, R61), one hardware reset
(70_reset_and_hazards.md R200), or an idle wait (R201). -/

namespace Sys2Proof.Machine

/-- Run one command word to its end: decode it at the instance's width and execute it, or answer `ILLEGAL_CMD`
(30_encoding.md R64, R65, R69). -/
def runWord (w : CmdWord) (s : State) : Host.Outcome State Fault Refusal :=
  match decode s.params.width w with
  | .command i => exec i s
  | .illegal _ => .next (illegalCommand s)

/-- One step of the machine (00_scope.md R8; 92_eei_decisions.md D3). -/
def step (s : State) : Host.Outcome State Fault Refusal :=
  match fetch s with
  | .reset t => .next (hwReset t)
  | .stuck p => .fault (.hang p)
  | .idle => .next s
  | .word w t => runWord w t
  | .cutWord w t =>
    match runWord w t with
    | .next t' => .next (abandon t t')
    | .fault r => .fault r
    | .refused r => .refused r

/-- `s` with the command of the table bits `w` presented by the host next, before whatever else the host does, and no command
in execution (log 5, log 11). -/
def State.withFetchWord (s : State) (nbits w : Nat) : State :=
  { s with host := .command (tableWord nbits w) :: s.host, waiting := none }

end Sys2Proof.Machine
end

