-- ==== Sys2Proof/Machine/Pseudo.lean ====
section
/-! DEFINITION. The two pseudo-commands and the notation of the test programs (30_encoding.md R72, R73): the host's side, no
part of the core. -/

namespace Sys2Proof.Machine

/-- Go on with `next` after a command that responded `OK`, with its result fields; stop at any other response (30_encoding.md
R73). -/
def afterOk (o : Host.Outcome State Fault Refusal) (next : Response → State → Host.Outcome State Fault Refusal) :
    Host.Outcome State Fault Refusal :=
  match o with
  | .next t =>
    match t.responses.getLast? with
    | some r => if r.status = .ok then next r t else .next t
    | none => .next t
  | .fault r => .fault r
  | .refused r => .refused r

/-- `TBE.PUT n, value`: `TBE.DESC n -> (k, u)`, then `TBE.WRITE k, u, value` (30_encoding.md R73). -/
def tbePut (n value : Data) (s : State) : Host.Outcome State Fault Refusal :=
  afterOk (exec (.tbeDesc n) s) fun r t => exec (.tbeWrite r.rk r.data value) t

/-- `TBE.GET n -> value`: `TBE.DESC n -> (k, u)`, then `TBE.READ k, u -> value` (30_encoding.md R73). -/
def tbeGet (n : Data) (s : State) : Host.Outcome State Fault Refusal :=
  afterOk (exec (.tbeDesc n) s) fun r t => exec (.tbeRead r.rk r.data) t

/-- Operands in decimal, comma separated, after the mnemonic (30_encoding.md R72). -/
def asmLine (mnemonic : String) (operands : List Nat) : String :=
  match operands with
  | [] => mnemonic
  | x :: xs => xs.foldl (fun line y => line ++ ", " ++ toString y) (mnemonic ++ " " ++ toString x)

/-- A command in the notation of 30_encoding.md R72, without its result: value, then size; or `k`, `u`, then value. -/
def asm : Instr → String
  | .bwWrite value size => asmLine "BW.WRITE" [value.toNat, size.toNat]
  | .bwWrite32 value size => asmLine "BW.WRITE32" [value.toNat, size.toNat]
  | .bwClose => asmLine "BW.CLOSE" []
  | .brRead size => asmLine "BR.READ" [size.toNat]
  | .brRead32 size => asmLine "BR.READ32" [size.toNat]
  | .brClose => asmLine "BR.CLOSE" []
  | .tbeDesc n => asmLine "TBE.DESC" [n.toNat]
  | .tbeWrite k u value => asmLine "TBE.WRITE" [k.toNat, u.toNat, value.toNat]
  | .tbeRead k u => asmLine "TBE.READ" [k.toNat, u.toNat]
  | .chunk size index => asmLine "CHUNK" [size.toNat, index.toNat]
  | .status => asmLine "STATUS" []
  | .bwInit => asmLine "BW.INIT" []
  | .brInit => asmLine "BR.INIT" []

end Sys2Proof.Machine
end

