-- ==== Sys2Proof/Safety.lean ====
section
/-! DEFINITION. The terms the statements use: what counts as a good state, what the environment is about to answer, what a
whole write or read of a bit string does (41_bit_writer.md R96, R97; 42_bit_reader.md R116, R117), truncated-binary codewords
(43_tbe.md R143, R144), and runs of commands. Nothing here is used by the machine. -/

namespace Sys2Proof.Machine

/-! ## Good states -/

/-- The invariant of a unit that is not faulted: every bit of `buf` at position `pend` or above is 0 (10_state.md R22, R26). -/
def UnitRegs.ok (r : UnitRegs) : Prop := r.err = false → r.buf.toNat < 2 ^ r.pend.toNat

/-- The failure information of an answer has `IW` bits (00_scope.md R7). -/
def SinkAnswer.wf (iw : Nat) : SinkAnswer → Prop
  | .accept => True
  | .fail info => info < 2 ^ iw
  | .silent => True

/-- The failure information of an answer has `IW` bits (00_scope.md R7). -/
def SourceAnswer.wf (iw : Nat) : SourceAnswer → Prop
  | .byte _ => True
  | .fail info => info < 2 ^ iw
  | .silent => True

/-- Every failure information the sink hands back has `IW` bits. -/
def Sink.wf (iw : Nat) (k : Sink) : Prop := (∀ a ∈ k.script, a.wf iw) ∧ k.rest.wf iw

/-- Every failure information the source hands back has `IW` bits. -/
def Source.wf (iw : Nat) (k : Source) : Prop := (∀ a ∈ k.script, a.wf iw) ∧ k.rest.wf iw

/-- The form of a response (30_encoding.md R66): `rk` and `data` are 0 unless the status is `OK`; `ioinfo` is 0 unless the
status is `SINK_FAIL` or `SOURCE_FAIL`, and has `IW` bits. -/
def Response.wf (iw : Nat) (r : Response) : Prop :=
  (r.status ≠ .ok → r.rk = 0 ∧ r.data = 0) ∧
  (r.status ≠ .sinkFail → r.status ≠ .sourceFail → r.ioinfo = 0) ∧
  r.ioinfo < 2 ^ iw

/-- The invariant of the machine: both units (10_state.md R22, R26), the environment (00_scope.md R7) and the responses
(30_encoding.md R66) are as the spec says. -/
def State.Inv (s : State) : Prop :=
  s.bw.ok ∧ s.br.ok ∧ s.sink.wf s.params.infoWidth ∧ s.source.wf s.params.infoWidth ∧
  ∀ r ∈ s.responses, r.wf s.params.infoWidth

/-! ## What the environment is about to answer -/

/-- The sink after it has answered `n` requests. -/
def Sink.skip : Nat → Sink → Sink
  | 0, k => k
  | n + 1, k => Sink.skip n k.advance

/-- The sink accepts the next `n` bytes. -/
def Sink.accepts : Nat → Sink → Prop
  | 0, _ => True
  | n + 1, k => k.answer = .accept ∧ Sink.accepts n k.advance

/-- The source after it has answered `n` requests. -/
def Source.skip : Nat → Source → Source
  | 0, k => k
  | n + 1, k => Source.skip n k.advance

/-- The source answers the next requests with these bytes, in order. -/
def Source.delivers : List Byte → Source → Prop
  | [], _ => True
  | b :: bs, k => k.answer = .byte b ∧ Source.delivers bs k.advance

/-! ## Bit strings -/

/-- The number whose bit `j` is bit `j mod 8` of byte `j / 8` (20_memory.md R44). -/
def bytesNum : List Byte → Nat
  | [] => 0
  | b :: bs => b.toNat + 256 * bytesNum bs

/-- The first `n` bytes of a bit string, given as a number with stream bit `j` at bit `j` (20_memory.md R44). -/
def streamBytes (bits n : Nat) : List Byte := (List.range n).map fun i => byteAt bits (8 * i)

/-- The pending bits of the writer with `size` bits of `v` above them, as one number (20_memory.md R45). -/
def pendingWith (v size : Nat) (s : State) : Nat := s.bw.buf.toNat ||| ((v % 2 ^ size) <<< s.bw.pend.toNat)

/-- How many sink transfers a write of `size` bits makes: `floor((BW.pend + size) / 8)` (41_bit_writer.md R96). -/
def putCount (size : Nat) (s : State) : Nat := (s.bw.pend.toNat + size) / 8

/-- `s` after the low `size` bits of `v` were appended to the bit stream, every transfer accepted: the complete bytes are in
`SNK`, the last `(BW.pend + size) mod 8` bits in `BW.buf` (41_bit_writer.md R96, R97). -/
def State.wrote (s : State) (v size : Nat) : State :=
  { s with
    bw := { buf := byteAt (pendingWith v size s) (8 * putCount size s),
            pend := BitVec.ofNat 3 ((s.bw.pend.toNat + size) % 8), err := s.bw.err }
    snk := s.snk ++ streamBytes (pendingWith v size s) (putCount size s)
    sink := s.sink.skip (putCount size s) }

/-- `s` after the sink failed the transfer number `j` (from 0) of a write of the low `size` bits of `v`: `j` bytes are in
`SNK`, the writer unit is faulted and its data registers unspecified (20_memory.md R51; 60_exceptions.md R176). -/
def State.wroteInPart (s : State) (v size j : Nat) : State :=
  { s with
    bw := UnitRegs.failed s.freeCount
    freeCount := s.freeCount + 1
    snk := s.snk ++ streamBytes (pendingWith v size s) j
    sink := s.sink.skip (j + 1) }

/-- How many source transfers a read of `size` bits makes: `ceil(max(size - BR.pend, 0) / 8)` (42_bit_reader.md R116). -/
def getCount (size : Nat) (s : State) : Nat := (size - s.br.pend.toNat + 7) / 8

/-- The unconsumed bits of the reader with the bits of the bytes `bs` above them, as one number: the coming stream bits
(20_memory.md R45). -/
def comingBits (bs : List Byte) (s : State) : Nat := s.br.buf.toNat ||| (bytesNum bs <<< s.br.pend.toNat)

/-- `s` after `size` bits were read, `bs` the bytes this fetched (42_bit_reader.md R116, R117). -/
def State.hasRead (s : State) (bs : List Byte) (size : Nat) : State :=
  { s with
    br := { buf := byteAt (comingBits bs s) size,
            pend := BitVec.ofNat 3 (s.br.pend.toNat + 8 * bs.length - size), err := s.br.err }
    spos := s.spos + bs.length
    source := s.source.skip bs.length }

/-- `s` after the source delivered `j` bytes of a read and failed the next request: the bytes stay consumed, the reader unit
is faulted and its data registers unspecified (20_memory.md R51; 60_exceptions.md R176). -/
def State.readInPart (s : State) (j : Nat) : State :=
  { s with
    br := UnitRegs.failed s.freeCount
    freeCount := s.freeCount + 1
    spos := s.spos + j
    source := s.source.skip (j + 1) }

/-- `t` is `s` with a command waiting on the sink, which never answers the transfer number `j` (from 0) of a write of the low
`size` bits of `v`: `j` bytes are in `SNK`, no response is given, the flag is not set, and nothing but the writer unit and its
stream has changed (60_exceptions.md R187; log 9). What the data registers hold is not said: no command reads them before
hardware reset. -/
def State.waitsOnSink (s : State) (v size j : Nat) (t : State) : Prop :=
  t.bw.err = false ∧
  t = { s with bw := t.bw, waiting := some .sink, sink := s.sink.skip (j + 1),
               snk := s.snk ++ streamBytes (pendingWith v size s) j }

/-- `t` is `s` with a command waiting on the source, which delivers `j` bytes and never answers the next request: no response
is given, the flag is not set, and nothing but the reader unit and its stream has changed (60_exceptions.md R187; log 9). What
the data registers hold is not said: no command reads them before hardware reset. -/
def State.waitsOnSource (s : State) (j : Nat) (t : State) : Prop :=
  t.br.err = false ∧
  t = { s with br := t.br, waiting := some .source, source := s.source.skip (j + 1), spos := s.spos + j }

/-! ## Codewords -/

/-- The length of the codeword of `value`: `k` or `k + 1` bits (43_tbe.md R144). -/
def codewordLen (k u value : Nat) : Nat := if value < u then k else k + 1

/-- The codeword of `value` as a number with its first stream bit at bit 0 (43_tbe.md R143): `value`, or, with
`x = value + u`, bits `k..1` of `x` below bit 0 of `x`. -/
def codeword (k u value : Nat) : Nat :=
  if value < u then value else (value + u) / 2 + ((value + u) % 2) * 2 ^ k

/-! ## Responses and runs -/

/-- An `OK` response with these result fields (30_encoding.md R66). -/
def okResponse (rk : BitVec 8) (data : Data) : Response := { status := .ok, rk := rk, data := data, ioinfo := 0 }

/-- A fault response (60_exceptions.md R170). -/
def faultResponse (st : Status) (info : Nat) : Response := { status := st, rk := 0, data := 0, ioinfo := info }

/-- `s` with one more response given. -/
def State.responded (s : State) (r : Response) : State := { s with responses := s.responses ++ [r] }

/-- The commands that run on the writer unit (30_encoding.md R63, column "unit"). -/
def runsOnWriter : Instr → Bool
  | .bwWrite _ _ => true
  | .bwWrite32 _ _ => true
  | .bwClose => true
  | .tbeWrite _ _ _ => true
  | .bwInit => true
  | .brRead _ => false
  | .brRead32 _ => false
  | .brClose => false
  | .tbeDesc _ => false
  | .tbeRead _ _ => false
  | .chunk _ _ => false
  | .status => false
  | .brInit => false

/-- The commands that run on the reader unit (30_encoding.md R63, column "unit"). -/
def runsOnReader : Instr → Bool
  | .brRead _ => true
  | .brRead32 _ => true
  | .brClose => true
  | .tbeRead _ _ => true
  | .brInit => true
  | .bwWrite _ _ => false
  | .bwWrite32 _ _ => false
  | .bwClose => false
  | .tbeDesc _ => false
  | .tbeWrite _ _ _ => false
  | .chunk _ _ => false
  | .status => false
  | .bwInit => false

/-- Commands executed one after another, each from the state the one before left. -/
def execAll : List Instr → State → Host.Outcome State Fault Refusal
  | [], s => .next s
  | i :: is, s =>
    match exec i s with
    | .next t => execAll is t
    | .fault r => .fault r
    | .refused r => .refused r

/-- A value written with one command and read back with the matching one (70_reset_and_hazards.md R209, R210, R214). -/
inductive Item where
  | raw8 (value : Byte) (size : Size)
  | raw32 (value : BitVec 32) (size : Size)
  | tbe (k : Size) (u value : Data)
deriving DecidableEq, Repr

/-- The command that writes the item. -/
def Item.put : Item → Instr
  | .raw8 value size => .bwWrite value size
  | .raw32 value size => .bwWrite32 value size
  | .tbe k u value => .tbeWrite k u value

/-- The command that reads the item back. -/
def Item.get : Item → Instr
  | .raw8 _ size => .brRead size
  | .raw32 _ size => .brRead32 size
  | .tbe k u _ => .tbeRead k u

/-- The item is in range for an instance of width `W`: the size is, or the descriptor is valid and the value below its
bound. -/
def Item.legal (W : Width) : Item → Prop
  | .raw8 _ size => size.toNat ≤ 8
  | .raw32 _ size => size.toNat ≤ 32
  | .tbe k u value => validDescriptor W k.toNat u.toNat = true ∧ value.toNat < boundOf k.toNat u.toNat

/-- What reading the item back returns: the value masked to its size, or the encoded value. -/
def Item.value : Item → Nat
  | .raw8 value size => value.toNat % 2 ^ size.toNat
  | .raw32 value size => value.toNat % 2 ^ size.toNat
  | .tbe _ _ value => value.toNat

/-- How many stream bits the item takes (43_tbe.md R144). -/
def Item.bits : Item → Nat
  | .raw8 _ size => size.toNat
  | .raw32 _ size => size.toNat
  | .tbe k u value => codewordLen k.toNat u.toNat value.toNat

/-! ## Reserved bits, faults and transfers, as the tables of the spec give them -/

/-- Every bit of a 64-bit field from bit `n` up. -/
def bitsFrom (n : Nat) : Data := BitVec.allOnes 64 <<< n

/-- The reserved bits of a command word with opcode `op` on an instance of width `W` (30_encoding.md R65; the column
"reserved_zero_mask" of spec/opcode_table.json). -/
def reservedMask (W : Width) (op : Nat) : CmdWord :=
  match op with
  | 0x1 => packWord 0 0 (bitsFrom 8) (bitsFrom 0)
  | 0x2 => packWord 0 0 (bitsFrom 32) (bitsFrom 0)
  | 0x3 => packWord 0 (BitVec.allOnes 8) (bitsFrom 0) (bitsFrom 0)
  | 0x4 => packWord 0 0 (bitsFrom 0) (bitsFrom 0)
  | 0x5 => packWord 0 0 (bitsFrom 0) (bitsFrom 0)
  | 0x6 => packWord 0 (BitVec.allOnes 8) (bitsFrom 0) (bitsFrom 0)
  | 0x7 => packWord 0 (BitVec.allOnes 8) (bitsFrom W.bits) (bitsFrom 0)
  | 0x8 => packWord 0 0 (bitsFrom W.bits) (bitsFrom W.bits)
  | 0x9 => packWord 0 0 (bitsFrom 0) (bitsFrom W.bits)
  | 0xA => packWord 0 0 (bitsFrom 8) (bitsFrom 0)
  | 0xB => packWord 0 (BitVec.allOnes 8) (bitsFrom 0) (bitsFrom 0)
  | 0xC => packWord 0 (BitVec.allOnes 8) (bitsFrom 0) (bitsFrom 0)
  | 0xD => packWord 0 (BitVec.allOnes 8) (bitsFrom 0) (bitsFrom 0)
  | _ => 0

/-- The word has a reserved opcode (30_encoding.md R64) or a reserved bit set (R65). -/
def reservedWord (W : Width) (w : CmdWord) : Prop :=
  opField w = 0x0 ∨ opField w = 0xE ∨ opField w = 0xF ∨ w &&& reservedMask W (opField w).toNat ≠ 0

/-- The clean fault a command meets, by the fixed order of 60_exceptions.md R179, steps 1 to 4: a reserved bit, the unit's
error flag, the operand checks, the range check. -/
def cleanFault (i : Instr) (s : State) : Option Status :=
  if i.wellFormed s.params.width = false then some .illegalCmd
  else match i with
  | .bwWrite _ size =>
    if s.bw.err then some .unitFaulted else if 8 < size.toNat then some .sizeRange else none
  | .bwWrite32 _ size =>
    if s.bw.err then some .unitFaulted else if 32 < size.toNat then some .sizeRange else none
  | .bwClose => if s.bw.err then some .unitFaulted else none
  | .brRead size =>
    if s.br.err then some .unitFaulted else if 8 < size.toNat then some .sizeRange else none
  | .brRead32 size =>
    if s.br.err then some .unitFaulted else if 32 < size.toNat then some .sizeRange else none
  | .brClose => if s.br.err then some .unitFaulted else none
  | .tbeDesc n => if n.toNat = 0 then some .badBound else none
  | .tbeWrite k u value =>
    if s.bw.err then some .unitFaulted
    else if validDescriptor s.params.width k.toNat u.toNat = false then some .badDesc
    else if boundOf k.toNat u.toNat ≤ value.toNat then some .valueRange
    else none
  | .tbeRead k u =>
    if s.br.err then some .unitFaulted
    else if validDescriptor s.params.width k.toNat u.toNat = false then some .badDesc
    else none
  | .chunk _ _ => none
  | .status => none
  | .bwInit => none
  | .brInit => none

/-- The most sink transfers a command makes (20_memory.md R41). -/
def sinkLimit (W : Width) : Instr → Nat
  | .bwWrite _ _ => 1
  | .bwWrite32 _ _ => 4
  | .bwClose => 1
  | .tbeWrite _ _ _ => (7 + W.bits) / 8
  | .brRead _ => 0
  | .brRead32 _ => 0
  | .brClose => 0
  | .tbeDesc _ => 0
  | .tbeRead _ _ => 0
  | .chunk _ _ => 0
  | .status => 0
  | .bwInit => 0
  | .brInit => 0

/-- The most source transfers a command makes (20_memory.md R41). -/
def sourceLimit (W : Width) : Instr → Nat
  | .brRead _ => 1
  | .brRead32 _ => 4
  | .tbeRead _ _ => W.bits / 8
  | .bwWrite _ _ => 0
  | .bwWrite32 _ _ => 0
  | .bwClose => 0
  | .brClose => 0
  | .tbeDesc _ => 0
  | .tbeWrite _ _ _ => 0
  | .chunk _ _ => 0
  | .status => 0
  | .bwInit => 0
  | .brInit => 0

/-! ## The written stream as one number -/

/-- How many bits are in the written stream: 8 for each byte of `SNK`, and the pending ones (41_bit_writer.md R96). -/
def streamLen (s : State) : Nat := 8 * s.snk.length + s.bw.pend.toNat

/-- The written stream, stream bit `j` at bit `j`: the bytes of `SNK`, and the pending bits above them (20_memory.md R44). -/
def streamNum (s : State) : Nat := bytesNum s.snk + s.bw.buf.toNat * 2 ^ (8 * s.snk.length)

end Sys2Proof.Machine
end

