-- ==== Sys2Proof/Certificates/Slice0/Obligations.lean ====
section
/-! DEFINITION. The statements for the provers, from the numbered rules of spec/. Where a statement rests on a choice or an
inference of the model, its docstring says so and names the log entry. -/

open Sys2Proof Sys2Proof.Machine

/-! ## Command words -/

/-- Decode and encode agree: every command that an instance can be given decodes back from its own word (30_encoding.md
section 5, rule R69, an inference of the spec). -/
def Obligations.DecodeOfEncodeIsTheCommand : Prop :=
  ∀ (W : Width) (i : Instr), i.wellFormed W = true → decode W (encode i) = .command i

/-- The other direction: a word that decodes is the word of what it decodes to, which fits the width (30_encoding.md section
5, rule R69, an inference of the spec). -/
def Obligations.DecodedCommandEncodesToItsWord : Prop :=
  ∀ (W : Width) (w : CmdWord) (i : Instr), decode W w = .command i → i.wellFormed W = true ∧ encode i = w

/-- A word with a reserved opcode or a reserved bit set is answered with `ILLEGAL_CMD` in every state of a core that takes a
command, and nothing else happens; every other word is a command, whatever its `sz` (60_exceptions.md R172; 30_encoding.md
section 5). -/
def Obligations.ReservedWordsAreIllegal : Prop :=
  ∀ (s : State) (w : CmdWord) (rest : List HostEvent), s.host = .command w :: rest → s.waiting = none →
    (reservedWord s.params.width w →
      step s = .next (State.responded { s with host := rest } (faultResponse .illegalCmd 0))) ∧
    (¬ reservedWord s.params.width w → ∃ i, decode s.params.width w = .command i)

/-- Some words written out from 30_encoding.md section 8 (worked encodings) decode to the commands they stand for. -/
def Obligations.SampleWordsDecode : Prop :=
  decode .w32 0x000000000000000000000000000000A5081 = .command (.bwWrite 0xA5 8) ∧
  decode .w32 0x00000000000000000000000012345678202 = .command (.bwWrite32 0x12345678 32) ∧
  decode .w32 0x00000000000000000000000000000000115 = .command (.brRead32 17) ∧
  decode .w32 0x00000000000000030000000000000004028 = .command (.tbeWrite 2 3 4) ∧
  decode .w32 0x0000000000000000000000000000000213A = .command (.chunk 19 2)

/-! ## Steps, reset, invariants -/

/-- A step runs the decoded command: at a core that takes a command, the step on a word that decodes to a well-formed command
is the command's execution, the host's event taken (30_encoding.md section 1). -/
def Obligations.StepRunsTheDecodedCommand : Prop :=
  ∀ (s : State) (w : CmdWord) (rest : List HostEvent) (i : Instr),
    s.host = .command w :: rest → s.waiting = none → decode s.params.width w = .command i →
    i.wellFormed s.params.width = true → step s = exec i { s with host := rest }

/-- A core with no command in execution and no command presented waits; one that waits for ever on a port takes no command
(70_reset_and_hazards.md section 1; 60_exceptions.md section 5; that these are a step that changes nothing and a stop named
`hang` is the model's choice, log 5 and log 9). -/
def Obligations.CoreWithoutCommandWaits : Prop :=
  ∀ s : State,
    (s.host = [] → s.waiting = none → step s = .next s) ∧
    (∀ p, s.waiting = some p → (∀ rest, s.host ≠ .reset :: rest) → step s = .fault (.hang p))

/-- Hardware reset: the six registers become 0 and no transfer is made, also for a command in execution that waits on a port;
a command whose response it forestalls keeps its transfers and gets no response (70_reset_and_hazards.md section 1, rule
R200; how the two ways to cut a command are presented to the model is the model's, log 5 and log 10). -/
def Obligations.HardwareResetClearsTheRegisters : Prop :=
  ∀ (s : State) (rest : List HostEvent),
    (s.host = .reset :: rest →
      step s = .next { s with host := rest, bw := { buf := 0, pend := 0, err := false },
                              br := { buf := 0, pend := 0, err := false }, waiting := none }) ∧
    (∀ (w : CmdWord) (t : State), s.host = .abandoned w :: rest → s.waiting = none →
      step { s with host := .command w :: rest } = .next t →
      step s = .next { t with bw := { buf := 0, pend := 0, err := false },
                              br := { buf := 0, pend := 0, err := false },
                              waiting := none, responses := s.responses })

/-- The state after reset has all six registers 0, an empty sink history and source position 0 (10_state.md section 5;
20_memory.md section 1). -/
def Obligations.ResetStateHasZeroRegisters : Prop :=
  State.reset.bw.buf = 0 ∧ State.reset.bw.pend = 0 ∧ State.reset.bw.err = false ∧
  State.reset.br.buf = 0 ∧ State.reset.br.pend = 0 ∧ State.reset.br.err = false ∧
  State.reset.snk = [] ∧ State.reset.spos = 0

/-- `BW.INIT` followed by `BR.INIT` reaches the registers of reset from any state, with no transfer (70_reset_and_hazards.md
section 1, the last sentence of rule R201). -/
def Obligations.InitPairReachesReset : Prop :=
  ∀ s : State, ∃ t u, exec .bwInit s = .next t ∧ exec .brInit t = .next u ∧
    u = { s with bw := State.reset.bw, br := State.reset.br,
                 responses := s.responses ++ [okResponse 0 0, okResponse 0 0] }

/-- The state after reset is good (10_state.md sections 2, 3 and 5; the environment of that state is the model's choice, log
3 and log 4). -/
def Obligations.ResetStateIsGood : Prop := State.reset.Inv

/-- Every step keeps the invariant: unless its flag is set a unit has no bit of `buf` at position `pend` or above, failure
information has `IW` bits, and every response has the form of the spec (10_state.md sections 2 and 3, rules R22 and R26,
inferences of the spec; 30_encoding.md section 6). -/
def Obligations.StepKeepsGoodStates : Prop :=
  ∀ s t : State, s.Inv → step s = .next t → t.Inv

/-- What no step undoes: the parameters stay, accepted bytes stay in `SNK`, delivered bytes stay consumed, also at hardware
reset (20_memory.md section 4; 00_scope.md section 4; 70_reset_and_hazards.md section 1, rule R200). That the responses given
so far are kept as a list that no step, hardware reset included, shortens is the model's inference (log 13, from
70_reset_and_hazards.md sections 1 and 4). -/
def Obligations.StepOnlyExtendsHistories : Prop :=
  ∀ s t : State, step s = .next t →
    t.params = s.params ∧ s.snk <+: t.snk ∧ s.spos ≤ t.spos ∧ s.responses <+: t.responses

/-- The error flags are sticky: only a hardware reset or the unit's INIT clears one (10_state.md sections 2 and 3;
60_exceptions.md section 5). -/
def Obligations.ErrorFlagsAreSticky : Prop :=
  ∀ s t : State, step s = .next t →
    (s.bw.err = true → t.bw.err = false →
      (∃ rest, s.host = .reset :: rest) ∨ (∃ w rest, s.host = .abandoned w :: rest) ∨
      ∃ w rest, s.host = .command w :: rest ∧ decode s.params.width w = .command .bwInit) ∧
    (s.br.err = true → t.br.err = false →
      (∃ rest, s.host = .reset :: rest) ∨ (∃ w rest, s.host = .abandoned w :: rest) ∨
      ∃ w rest, s.host = .command w :: rest ∧ decode s.params.width w = .command .brInit)

/-- The units are independent: a command that does not run on a unit leaves the unit and its stream alone, and, but for
`STATUS`, neither its response nor any other effect depends on them, given the same answers of its own stream (20_memory.md
section 6, rule R56, and 44_system.md, rule R162, inferences of the spec; 10_state.md section 4). That the two runs
compared meet the same list of answers is the model's inference (log 6: an environment that reacts may answer otherwise), and
so is that a failure they share leaves the same free values (log 7). -/
def Obligations.UnitsAreIndependent : Prop :=
  ∀ (i : Instr) (s t : State), exec i s = .next t →
    (runsOnWriter i = false →
      t.bw = s.bw ∧ t.snk = s.snk ∧ t.sink = s.sink ∧
      (i ≠ .status → ∀ (r : UnitRegs) (bytes : List Byte) (k : Sink),
        exec i { s with bw := r, snk := bytes, sink := k } = .next { t with bw := r, snk := bytes, sink := k })) ∧
    (runsOnReader i = false →
      t.br = s.br ∧ t.spos = s.spos ∧ t.source = s.source ∧
      (i ≠ .status → ∀ (r : UnitRegs) (n : Nat) (k : Source),
        exec i { s with br := r, spos := n, source := k } = .next { t with br := r, spos := n, source := k }))

/-- No command stops the machine, and a run stops only where a transfer is never answered (60_exceptions.md sections 1 and 5;
the stop's form is the model's choice, log 9). -/
def Obligations.CommandsNeverStop : Prop :=
  (∀ (i : Instr) (s : State), ∃ t, exec i s = .next t) ∧
  ∀ s : State, (∃ t, step s = .next t) ∨ ∃ p, s.waiting = some p ∧ step s = .fault (.hang p)

/-- Every command ends with exactly one response, or waits for ever on a port of its unit whose answer never comes
(30_encoding.md section 6; 60_exceptions.md section 5; how the wait is held is the model's choice, log 9). -/
def Obligations.EveryCommandGivesOneResponse : Prop :=
  ∀ (i : Instr) (s t : State), exec i s = .next t →
    (t.waiting = s.waiting ∧ ∃ r, t.responses = s.responses ++ [r]) ∨
    (t.responses = s.responses ∧ t.waiting = some .sink ∧ runsOnWriter i = true ∧
      ∃ j, s.sink.accepts j ∧ (s.sink.skip j).answer = .silent) ∨
    (t.responses = s.responses ∧ t.waiting = some .source ∧ runsOnReader i = true ∧
      ∃ bs, s.source.delivers bs ∧ (s.source.skip bs.length).answer = .silent)

/-! ## Faults -/

/-- Every writer command but `BW.INIT` is refused while `BW.err = 1`, every reader command but `BR.INIT` while `BR.err = 1`,
with no state change and no transfer (60_exceptions.md R177). -/
def Obligations.FaultedUnitRefuses : Prop :=
  ∀ (i : Instr) (s : State), i.wellFormed s.params.width = true →
    (runsOnWriter i = true ∧ i ≠ .bwInit ∧ s.bw.err = true ∨
      runsOnReader i = true ∧ i ≠ .brInit ∧ s.br.err = true) →
    exec i s = .next (s.responded (faultResponse .unitFaulted 0))

/-- Clean faults leave no trace: after any fault response but the two I/O faults, nothing but the response has changed
(60_exceptions.md section 3, rule R180, an inference of the spec). -/
def Obligations.CleanFaultsLeaveNoTrace : Prop :=
  ∀ (i : Instr) (s t : State) (r : Response), exec i s = .next t → t.responses = s.responses ++ [r] →
    r.status ≠ .ok → r.status ≠ .sinkFail → r.status ≠ .sourceFail → t = s.responded r

/-- A command reports the first clean fault that applies in the fixed order; if none does, it responds `OK` unless a transfer
of its unit fails or is never answered (60_exceptions.md sections 1, 3 and 5; that an operand too wide for `W` counts as a
reserved bit is the model's inference, log 12; how the wait for an answer that never comes is held is the model's choice,
log 9). -/
def Obligations.FaultsComeInTheFixedOrder : Prop :=
  ∀ (i : Instr) (s : State),
    (∀ st, cleanFault i s = some st → exec i s = .next (s.responded (faultResponse st 0))) ∧
    (cleanFault i s = none → ∃ t, exec i s = .next t ∧
      ((∃ rk data, t.responses = s.responses ++ [okResponse rk data]) ∨
       (∃ info, t.responses = s.responses ++ [faultResponse .sinkFail info] ∧ t.bw.err = true ∧
          runsOnWriter i = true ∧ ∃ j, (s.sink.skip j).answer = .fail info) ∨
       (∃ info, t.responses = s.responses ++ [faultResponse .sourceFail info] ∧ t.br.err = true ∧
          runsOnReader i = true ∧ ∃ j, (s.source.skip j).answer = .fail info) ∨
       (t.responses = s.responses ∧ t.waiting = some .sink ∧ runsOnWriter i = true ∧
          ∃ j, s.sink.accepts j ∧ (s.sink.skip j).answer = .silent) ∨
       (t.responses = s.responses ∧ t.waiting = some .source ∧ runsOnReader i = true ∧
          ∃ bs, s.source.delivers bs ∧ (s.source.skip bs.length).answer = .silent)))

/-- A size out of range is refused with no effect; `CHUNK` takes every size (60_exceptions.md R173). -/
def Obligations.SizeOutOfRangeIsRefused : Prop :=
  ∀ (size : Size) (s : State),
    (9 ≤ size.toNat → s.bw.err = false → ∀ value,
      exec (.bwWrite value size) s = .next (s.responded (faultResponse .sizeRange 0))) ∧
    (33 ≤ size.toNat → s.bw.err = false → ∀ value,
      exec (.bwWrite32 value size) s = .next (s.responded (faultResponse .sizeRange 0))) ∧
    (9 ≤ size.toNat → s.br.err = false →
      exec (.brRead size) s = .next (s.responded (faultResponse .sizeRange 0))) ∧
    (33 ≤ size.toNat → s.br.err = false →
      exec (.brRead32 size) s = .next (s.responded (faultResponse .sizeRange 0))) ∧
    (∀ index, ∃ data, exec (.chunk size index) s = .next (s.responded (okResponse 0 data)))

/-- A pair that is no valid descriptor is refused with no effect (60_exceptions.md R174). -/
def Obligations.BadDescriptorIsRefused : Prop :=
  ∀ (k : Size) (u : Data) (s : State), u.toNat < 2 ^ s.params.width.bits →
    (k.toNat > s.params.width.bits - 1 ∨ u.toNat = 0 ∨ u.toNat > 2 ^ k.toNat) →
    (s.bw.err = false → ∀ value : Data, value.toNat < 2 ^ s.params.width.bits →
      exec (.tbeWrite k u value) s = .next (s.responded (faultResponse .badDesc 0))) ∧
    (s.br.err = false → exec (.tbeRead k u) s = .next (s.responded (faultResponse .badDesc 0)))

/-- `TBE.DESC` of the bound 0 is refused with no effect (60_exceptions.md R175). -/
def Obligations.BoundZeroIsRefused : Prop :=
  ∀ s : State, exec (.tbeDesc 0) s = .next (s.responded (faultResponse .badBound 0))

/-- A value at or above the bound is refused with no effect and no bit written, also where `value + u` needs a bit more than
`W` (60_exceptions.md R178). -/
def Obligations.ValueOutOfRangeIsRefused : Prop :=
  ∀ (k : Size) (u value : Data) (s : State),
    u.toNat < 2 ^ s.params.width.bits → value.toNat < 2 ^ s.params.width.bits → s.bw.err = false →
    k.toNat ≤ s.params.width.bits - 1 → 1 ≤ u.toNat → u.toNat ≤ 2 ^ k.toNat →
    2 ^ (k.toNat + 1) - u.toNat ≤ value.toNat →
    exec (.tbeWrite k u value) s = .next (s.responded (faultResponse .valueRange 0))

/-- A sink failure ends a writer command at the failing transfer: the `j` bytes before it are in `SNK`, the flag is set, the
data registers are unspecified (free values, log 7), the failure information is in the response (20_memory.md section 4;
41_bit_writer.md sections 2 and 3; 60_exceptions.md section 2). -/
def Obligations.SinkFailureEndsTheCommand : Prop :=
  ∀ (s : State) (j info : Nat), s.bw.err = false → s.sink.accepts j → (s.sink.skip j).answer = .fail info →
    (∀ (value : Byte) (size : Size), size.toNat ≤ 8 → j < putCount size.toNat s →
      exec (.bwWrite value size) s =
        .next ((s.wroteInPart value.toNat size.toNat j).responded (faultResponse .sinkFail info))) ∧
    (∀ (value : BitVec 32) (size : Size), size.toNat ≤ 32 → j < putCount size.toNat s →
      exec (.bwWrite32 value size) s =
        .next ((s.wroteInPart value.toNat size.toNat j).responded (faultResponse .sinkFail info))) ∧
    (∀ (k : Size) (u value : Data), validDescriptor s.params.width k.toNat u.toNat = true →
      value.toNat < boundOf k.toNat u.toNat → j < putCount (codewordLen k.toNat u.toNat value.toNat) s →
      exec (.tbeWrite k u value) s =
        .next ((s.wroteInPart (codeword k.toNat u.toNat value.toNat)
          (codewordLen k.toNat u.toNat value.toNat) j).responded (faultResponse .sinkFail info))) ∧
    (0 < s.bw.pend.toNat → j = 0 →
      exec .bwClose s = .next (State.responded
        { s with bw := UnitRegs.failed s.freeCount, freeCount := s.freeCount + 1, sink := s.sink.advance }
        (faultResponse .sinkFail info)))

/-- A source failure ends a reader command at the failing request: the bytes before it stay consumed, the flag is set, the
data registers are unspecified (free values, log 7), no value is returned, the failure information is in the response
(42_bit_reader.md sections 1 and 2; 43_tbe.md section 4; 60_exceptions.md section 2). That the failing request itself leaves
the source position as it is is the model's inference (log 16); the spec leaves that to the environment. -/
def Obligations.SourceFailureEndsTheCommand : Prop :=
  ∀ (s : State) (bs : List Byte) (info : Nat), s.br.err = false → s.source.delivers bs →
    (s.source.skip bs.length).answer = .fail info →
    (∀ size : Size, size.toNat ≤ 8 → bs.length < getCount size.toNat s →
      exec (.brRead size) s = .next ((s.readInPart bs.length).responded (faultResponse .sourceFail info))) ∧
    (∀ size : Size, size.toNat ≤ 32 → bs.length < getCount size.toNat s →
      exec (.brRead32 size) s = .next ((s.readInPart bs.length).responded (faultResponse .sourceFail info))) ∧
    (∀ (k : Size) (u : Data), validDescriptor s.params.width k.toNat u.toNat = true →
      (bs.length < getCount k.toNat s ∨
        bs.length = getCount k.toNat s ∧ bs.length < getCount (k.toNat + 1) s ∧
          u.toNat ≤ comingBits bs s % 2 ^ k.toNat) →
      exec (.tbeRead k u) s = .next ((s.readInPart bs.length).responded (faultResponse .sourceFail info)))

/-- A transfer that is never answered: whichever of the seven commands that make transfers asks for it, the command gives no
response and waits on that port, the transfers before it stay made, and everything but its own unit and stream is as it was
(60_exceptions.md section 5; how the wait is held is the model's choice, log 9). -/
def Obligations.UnansweredTransferHangs : Prop :=
  ∀ s : State,
    (∀ j : Nat, s.bw.err = false → s.sink.accepts j → (s.sink.skip j).answer = .silent →
      (∀ (value : Byte) (size : Size), size.toNat ≤ 8 → j < putCount size.toNat s →
        ∃ t, exec (.bwWrite value size) s = .next t ∧ s.waitsOnSink value.toNat size.toNat j t) ∧
      (∀ (value : BitVec 32) (size : Size), size.toNat ≤ 32 → j < putCount size.toNat s →
        ∃ t, exec (.bwWrite32 value size) s = .next t ∧ s.waitsOnSink value.toNat size.toNat j t) ∧
      (∀ (k : Size) (u value : Data), validDescriptor s.params.width k.toNat u.toNat = true →
        value.toNat < boundOf k.toNat u.toNat → j < putCount (codewordLen k.toNat u.toNat value.toNat) s →
        ∃ t, exec (.tbeWrite k u value) s = .next t ∧
          s.waitsOnSink (codeword k.toNat u.toNat value.toNat) (codewordLen k.toNat u.toNat value.toNat) j t) ∧
      (0 < s.bw.pend.toNat → j = 0 →
        exec .bwClose s = .next { s with waiting := some .sink, sink := s.sink.advance })) ∧
    (∀ bs : List Byte, s.br.err = false → s.source.delivers bs → (s.source.skip bs.length).answer = .silent →
      (∀ size : Size, size.toNat ≤ 8 → bs.length < getCount size.toNat s →
        ∃ t, exec (.brRead size) s = .next t ∧ s.waitsOnSource bs.length t) ∧
      (∀ size : Size, size.toNat ≤ 32 → bs.length < getCount size.toNat s →
        ∃ t, exec (.brRead32 size) s = .next t ∧ s.waitsOnSource bs.length t) ∧
      (∀ (k : Size) (u : Data), validDescriptor s.params.width k.toNat u.toNat = true →
        (bs.length < getCount k.toNat s ∨
          bs.length = getCount k.toNat s ∧ bs.length < getCount (k.toNat + 1) s ∧
            u.toNat ≤ comingBits bs s % 2 ^ k.toNat) →
        ∃ t, exec (.tbeRead k u) s = .next t ∧ s.waitsOnSource bs.length t))

/-! ## Responses -/

/-- The layout of the response word: `status` at [3:0], `rk` at [11:4], `data` at [75:12], `ioinfo` above (30_encoding.md
section 6). -/
def Obligations.ResponseWordLayout : Prop :=
  ∀ (iw : Nat) (r : Response), r.ioinfo < 2 ^ iw →
    (r.word iw).toNat % 2 ^ 4 = r.status.code ∧ (r.word iw).toNat / 2 ^ 4 % 2 ^ 8 = r.rk.toNat ∧
    (r.word iw).toNat / 2 ^ 12 % 2 ^ 64 = r.data.toNat ∧ (r.word iw).toNat / 2 ^ 76 = r.ioinfo

/-- The status codes (30_encoding.md section 6): the nine of the table, and no status has a code from 9 to 15. -/
def Obligations.StatusCodesAreTheTable : Prop :=
  [Status.ok, .illegalCmd, .unitFaulted, .sizeRange, .badDesc, .badBound, .valueRange, .sinkFail, .sourceFail].map
    Status.code = [0, 1, 2, 3, 4, 5, 6, 7, 8] ∧ ∀ st : Status, st.code < 9

/-! ## The commands -/

/-- `BW.WRITE` completes: the low `size` bits of the value are appended to the stream, the complete bytes are in `SNK`, and
nothing else changes but the response (41_bit_writer.md section 1). -/
def Obligations.BwWriteCompletes : Prop :=
  ∀ (value : Byte) (size : Size) (s : State), s.bw.err = false → size.toNat ≤ 8 →
    s.sink.accepts (putCount size.toNat s) →
    exec (.bwWrite value size) s = .next ((s.wrote value.toNat size.toNat).responded (okResponse 0 0))

/-- `BW.WRITE32` completes: the low `size` bits of the value are appended to the stream, low byte first, and nothing else
changes but the response, for every `W` (41_bit_writer.md section 2). -/
def Obligations.BwWrite32Completes : Prop :=
  ∀ (value : BitVec 32) (size : Size) (s : State), s.bw.err = false → size.toNat ≤ 32 →
    s.sink.accepts (putCount size.toNat s) →
    exec (.bwWrite32 value size) s = .next ((s.wrote value.toNat size.toNat).responded (okResponse 0 0))

/-- `BW.CLOSE` completes: pending bits go out as one byte, with no pending bits nothing goes out; the unit is empty after it
(41_bit_writer.md section 3). -/
def Obligations.BwCloseCompletes : Prop :=
  ∀ s : State, s.bw.err = false →
    (0 < s.bw.pend.toNat → s.sink.answer = .accept →
      exec .bwClose s = .next (State.responded
        { s with bw := { buf := 0, pend := 0, err := false }, snk := s.snk ++ [s.bw.buf], sink := s.sink.advance }
        (okResponse 0 0))) ∧
    (s.bw.pend.toNat = 0 →
      exec .bwClose s = .next (State.responded
        { s with bw := { buf := 0, pend := 0, err := false } } (okResponse 0 0)))

/-- `BW.INIT` and `BR.INIT` complete in every state and make their unit new; `BR.CLOSE` completes on a reader that is not
faulted and drops its bits; none makes a transfer (41_bit_writer.md section 3; 42_bit_reader.md section 3). -/
def Obligations.InitAndReaderCloseComplete : Prop :=
  ∀ s : State,
    exec .bwInit s = .next (State.responded
      { s with bw := { buf := 0, pend := 0, err := false } } (okResponse 0 0)) ∧
    exec .brInit s = .next (State.responded
      { s with br := { buf := 0, pend := 0, err := false } } (okResponse 0 0)) ∧
    (s.br.err = false → exec .brClose s = .next (State.responded
      { s with br := { buf := 0, pend := 0, err := false } } (okResponse 0 0)))

/-- `BR.READ` completes: it fetches the bytes it needs and no more, returns the next `size` bits of the stream, and changes
nothing else but the response (42_bit_reader.md section 1). -/
def Obligations.BrReadCompletes : Prop :=
  ∀ (size : Size) (bs : List Byte) (s : State), s.br.err = false → size.toNat ≤ 8 →
    bs.length = getCount size.toNat s → s.source.delivers bs →
    exec (.brRead size) s = .next ((s.hasRead bs size.toNat).responded
      (okResponse 0 (BitVec.ofNat 64 (comingBits bs s % 2 ^ size.toNat))))

/-- `BR.READ32` completes: it fetches the bytes it needs and no more, returns the next `size` bits of the stream, and changes
nothing else but the response, for every `W` (42_bit_reader.md section 2). -/
def Obligations.BrRead32Completes : Prop :=
  ∀ (size : Size) (bs : List Byte) (s : State), s.br.err = false → size.toNat ≤ 32 →
    bs.length = getCount size.toNat s → s.source.delivers bs →
    exec (.brRead32 size) s = .next ((s.hasRead bs size.toNat).responded
      (okResponse 0 (BitVec.ofNat 64 (comingBits bs s % 2 ^ size.toNat))))

/-- `TBE.DESC` completes on every bound from 1 to `2^W - 1`: with `2^k <= n < 2^(k+1)` it returns `k` and `2^(k+1) - n`,
which is a valid descriptor that fits its fields, and changes nothing but the response (43_tbe.md section 2). -/
def Obligations.TbeDescCompletes : Prop :=
  ∀ (n : Data) (k : Nat) (s : State), n.toNat < 2 ^ s.params.width.bits →
    2 ^ k ≤ n.toNat → n.toNat < 2 ^ (k + 1) →
    exec (.tbeDesc n) s = .next (s.responded
      (okResponse (BitVec.ofNat 8 k) (BitVec.ofNat 64 (2 ^ (k + 1) - n.toNat)))) ∧
    k ≤ s.params.width.bits - 1 ∧ 1 ≤ 2 ^ (k + 1) - n.toNat ∧ 2 ^ (k + 1) - n.toNat ≤ 2 ^ k

/-- `TBE.WRITE` completes on every value of the alphabet: the codeword is appended to the stream and nothing else changes but
the response (43_tbe.md section 3). -/
def Obligations.TbeWriteCompletes : Prop :=
  ∀ (k : Size) (u value : Data) (s : State), s.bw.err = false →
    validDescriptor s.params.width k.toNat u.toNat = true → value.toNat < boundOf k.toNat u.toNat →
    s.sink.accepts (putCount (codewordLen k.toNat u.toNat value.toNat) s) →
    exec (.tbeWrite k u value) s = .next ((s.wrote (codeword k.toNat u.toNat value.toNat)
      (codewordLen k.toNat u.toNat value.toNat)).responded (okResponse 0 0))

/-- `TBE.READ` completes: if the next `k` bits `v` are below `u`, it returns them and no bit more is read; else one bit more
is read, and it returns `((v << 1) | b) - u`; nothing else changes but the response (43_tbe.md section 4). -/
def Obligations.TbeReadCompletes : Prop :=
  ∀ (k : Size) (u : Data) (bs : List Byte) (s : State), s.br.err = false →
    validDescriptor s.params.width k.toNat u.toNat = true → s.source.delivers bs →
    (bs.length = getCount k.toNat s → comingBits bs s % 2 ^ k.toNat < u.toNat →
      exec (.tbeRead k u) s = .next ((s.hasRead bs k.toNat).responded
        (okResponse 0 (BitVec.ofNat 64 (comingBits bs s % 2 ^ k.toNat))))) ∧
    (bs.length = getCount (k.toNat + 1) s → u.toNat ≤ comingBits bs s % 2 ^ k.toNat →
      exec (.tbeRead k u) s = .next ((s.hasRead bs (k.toNat + 1)).responded
        (okResponse 0 (BitVec.ofNat 64
          (2 * (comingBits bs s % 2 ^ k.toNat) + comingBits bs s / 2 ^ k.toNat % 2 - u.toNat)))))

/-- `CHUNK` returns the `index`-th element of `Chunks(size)` with `valid = 1`, or all zeros where there is none, and changes
nothing but the response, whatever the units' flags (40_chunk_iterator.md section 2; 30_encoding.md section 6). -/
def Obligations.ChunkReturnsTheElement : Prop :=
  ∀ (size index : Size) (s : State),
    (∀ c, (chunks size.toNat)[index.toNat]? = some c →
      ∃ data : Data, data.toNat = c.offset + c.chunkSize * 2 ^ 8 + 2 ^ 12 ∧
        exec (.chunk size index) s = .next (s.responded (okResponse 0 data))) ∧
    ((chunks size.toNat)[index.toNat]? = none →
      exec (.chunk size index) s = .next (s.responded (okResponse 0 0)))

/-- `STATUS` returns the six registers, each at its place, every other bit 0, in every state, and changes nothing but the
response (44_system.md; 10_state.md section 4). For a faulted unit the spec leaves the fields `buf` and `pend` of the view
unspecified; that they show the values the registers hold, free values that stay the same until the unit is new, is the
model's inference (log 7). -/
def Obligations.StatusShowsTheRegisters : Prop :=
  ∀ s : State, ∃ data : Data,
    data.toNat = s.bw.buf.toNat + s.bw.pend.toNat * 2 ^ 8 + s.bw.err.toNat * 2 ^ 11 +
      s.br.buf.toNat * 2 ^ 16 + s.br.pend.toNat * 2 ^ 24 + s.br.err.toNat * 2 ^ 27 ∧
    exec .status s = .next (s.responded (okResponse 0 data))

/-! ## Arithmetic, chunks, codewords -/

/-- `floor_log2(n)` is the position of the most significant 1 bit of `n` (43_tbe.md R131). -/
def Obligations.FloorLog2IsTheTopBit : Prop :=
  (∀ (W : Width) (n : Nat), 1 ≤ n → n < 2 ^ W.bits →
    floorLog2 n ≤ W.bits - 1 ∧ 2 ^ floorLog2 n ≤ n ∧ n < 2 ^ (floorLog2 n + 1) ∧
    ∀ e, 2 ^ e ≤ n → n < 2 ^ (e + 1) → e = floorLog2 n) ∧
  floorLog2 1 = 0 ∧ floorLog2 2 = 1 ∧ floorLog2 3 = 1 ∧ ∀ W : Width, floorLog2 (2 ^ W.bits - 1) = W.bits - 1

/-- The valid pairs are exactly the results of `TBE.DESC`: each is the descriptor of its bound, and every bound's descriptor
is valid with that bound (43_tbe.md section 2, rule R138, an inference of the spec). -/
def Obligations.ValidPairsAreTheDescriptors : Prop :=
  ∀ W : Width,
    (∀ k u, validDescriptor W k u = true →
      1 ≤ boundOf k u ∧ boundOf k u < 2 ^ W.bits ∧ descK (boundOf k u) = k ∧ descU (boundOf k u) = u) ∧
    (∀ n, 1 ≤ n → n < 2 ^ W.bits →
      validDescriptor W (descK n) (descU n) = true ∧ boundOf (descK n) (descU n) = n)

/-- `Chunks(size)` is the sequence of the contract: whole chunks at 0, 8, 16, …, then one pair of size `size mod 8` if that
is not 0 (40_chunk_iterator.md R80). -/
def Obligations.ChunksFollowTheContract : Prop :=
  ∀ size : Nat, chunks size =
    (List.range (size / 8)).map (fun i => { offset := 8 * i, chunkSize := 8 }) ++
      if size % 8 ≠ 0 then [{ offset := 8 * (size / 8), chunkSize := size % 8 }] else []

/-- The chunks of a size tile its bits: the sizes sum to it, there are `ceil(size / 8)` of them, the `i`-th is `(8 * i,
min(8, size - 8 * i))`, none is empty (40_chunk_iterator.md section 1, rule R81, an inference of the spec). -/
def Obligations.ChunksTileTheBits : Prop :=
  ∀ size : Nat, ((chunks size).map Chunk.chunkSize).sum = size ∧ (chunks size).length = (size + 7) / 8 ∧
    ∀ i c, (chunks size)[i]? = some c →
      c.offset = 8 * i ∧ c.chunkSize = min 8 (size - 8 * i) ∧ 1 ≤ c.chunkSize

/-- Writing is concatenation of bit strings: a write of `a + b` bits and the two writes complete alike, with the same effect
(41_bit_writer.md section 2, rule R97, an inference of the spec). That they also fail alike, with the same effect, is the
model's: the two runs meet the same list of answers (log 6), and the failure leaves the same free values in both (log 7). -/
def Obligations.WritingIsConcatenation : Prop :=
  ∀ (v a b : Nat) (s : State),
    (∀ t, writeBits v (a + b) s = .ok () t ↔
      ((writeBits v a s).bind fun _ u => writeBits (v >>> a) b u) = .ok () t) ∧
    (∀ st info t, writeBits v (a + b) s = .raise st info t ↔
      ((writeBits v a s).bind fun _ u => writeBits (v >>> a) b u) = .raise st info t)

/-- Reading is splitting of a bit string: a read of `a + b` bits and the two reads complete alike, with the same effect, and
the result is the two results put together (42_bit_reader.md section 2, rule R117, an inference of the spec). That they also
fail alike, with the same effect, is the model's: the two runs meet the same list of answers (log 6), the failure leaves the
same free values in both (log 7) and the source position as it is (log 16). -/
def Obligations.ReadingIsSplitting : Prop :=
  ∀ (a b : Nat) (s : State),
    (∀ r t, readBits (a + b) s = .ok r t ↔
      ((readBits a s).bind fun x u => (readBits b u).bind fun y w => .ok (x ||| (y <<< a)) w) = .ok r t) ∧
    (∀ st info t, readBits (a + b) s = .raise st info t ↔
      ((readBits a s).bind fun x u => (readBits b u).bind fun y w => .ok (x ||| (y <<< a)) w) = .raise st info t)

/-- A write started after `B` bits puts bit `i` of the value at stream bit `B + i` and leaves every earlier stream bit
alone; no later bit is set (20_memory.md section 2, rules R45 and R46, inferences of the spec). -/
def Obligations.WrittenBitsAreStreamBits : Prop :=
  ∀ (v size : Nat) (s : State), s.bw.buf.toNat < 2 ^ s.bw.pend.toNat → s.sink.accepts (putCount size s) →
    ∃ t, writeBits v size s = .ok () t ∧ streamLen t = streamLen s + size ∧
      ∀ j, (streamNum t).testBit j =
        if j < streamLen s then (streamNum s).testBit j
        else decide (j < streamLen s + size) && v.testBit (j - streamLen s)

/-- The layout of a codeword: a short one is the `k` low bits of the value; a long one has bit `i + 1` of `x = value + u` at
place `i` and bit 0 of `x` last (43_tbe.md section 3, rule R143, an inference of the spec). -/
def Obligations.CodewordLayout : Prop :=
  ∀ k u value : Nat, 1 ≤ u → u ≤ 2 ^ k → value < boundOf k u →
    codeword k u value < 2 ^ codewordLen k u value ∧
    (value < u → ∀ i, i < k → (codeword k u value).testBit i = value.testBit i) ∧
    (u ≤ value →
      (∀ i, i < k → (codeword k u value).testBit i = (value + u).testBit (i + 1)) ∧
      (codeword k u value).testBit k = (value + u).testBit 0)

/-- The length law: a `TBE.WRITE` that responds `OK` writes exactly `k` bits if the value is below `u` and `k + 1` otherwise;
a `TBE.READ` that responds `OK` reads exactly as many for the value it returns; of the `n` values `u` are short (43_tbe.md
R144). -/
def Obligations.CodewordLengthLaw : Prop :=
  (∀ (k : Size) (u value : Data) (s t : State) (r : Response), exec (.tbeWrite k u value) s = .next t →
    t.responses = s.responses ++ [r] → r.status = .ok →
    8 * t.snk.length + t.bw.pend.toNat =
      8 * s.snk.length + s.bw.pend.toNat + if value.toNat < u.toNat then k.toNat else k.toNat + 1) ∧
  (∀ (k : Size) (u : Data) (s t : State) (r : Response), exec (.tbeRead k u) s = .next t →
    t.responses = s.responses ++ [r] → r.status = .ok →
    8 * t.spos + s.br.pend.toNat =
      8 * s.spos + t.br.pend.toNat + if r.data.toNat < u.toNat then k.toNat else k.toNat + 1) ∧
  (∀ (W : Width) (k u : Nat), validDescriptor W k u = true →
    ((List.range (boundOf k u)).filter fun v => decide (v < u)).length = u ∧
    ((List.range (boundOf k u)).filter fun v => decide (u ≤ v)).length = boundOf k u - u)

/-- Decode is in range: whatever bits the source delivers, a `TBE.READ` that responds `OK` returns a value below the bound
(43_tbe.md section 4, rule R147, an inference of the spec). -/
def Obligations.DecodedValuesAreInRange : Prop :=
  ∀ (k : Size) (u : Data) (s t : State) (r : Response), exec (.tbeRead k u) s = .next t →
    t.responses = s.responses ++ [r] → r.status = .ok →
    validDescriptor s.params.width k.toNat u.toNat = true ∧ r.data.toNat < boundOf k.toNat u.toNat

/-- The codewords of one alphabet are prefix-free: no codeword is the beginning of another's (43_tbe.md section 4, rule
R149). -/
def Obligations.CodewordsArePrefixFree : Prop :=
  ∀ k u v₁ v₂ : Nat, 1 ≤ u → u ≤ 2 ^ k → v₁ < boundOf k u → v₂ < boundOf k u →
    codewordLen k u v₁ ≤ codewordLen k u v₂ →
    codeword k u v₂ % 2 ^ codewordLen k u v₁ = codeword k u v₁ → v₁ = v₂

/-- Zero-bit codewords and zero-bit reads and writes: on a unit that is not faulted they respond `OK` (a read with 0) and
leave no trace, whatever the sink and the source would answer, any number of them; on a faulted unit they are refused
(70_reset_and_hazards.md R213). -/
def Obligations.ZeroBitCommandsLeaveNoTrace : Prop :=
  ∀ s : State,
    (∀ i, (i = .tbeWrite 0 1 0 ∨ (∃ v, i = .bwWrite v 0) ∨ ∃ v, i = .bwWrite32 v 0) →
      (s.bw.err = false → exec i s = .next (s.responded (okResponse 0 0))) ∧
      (s.bw.err = true → exec i s = .next (s.responded (faultResponse .unitFaulted 0)))) ∧
    (∀ i, (i = .tbeRead 0 1 ∨ i = .brRead 0 ∨ i = .brRead32 0) →
      (s.br.err = false → exec i s = .next (s.responded (okResponse 0 0))) ∧
      (s.br.err = true → exec i s = .next (s.responded (faultResponse .unitFaulted 0)))) ∧
    (s.bw.err = false → s.br.err = false → ∀ is : List Instr,
      (∀ i ∈ is, i = .tbeWrite 0 1 0 ∨ (∃ v, i = .bwWrite v 0) ∨ (∃ v, i = .bwWrite32 v 0) ∨
        i = .tbeRead 0 1 ∨ i = .brRead 0 ∨ i = .brRead32 0) →
      execAll is s = .next { s with responses := s.responses ++ List.replicate is.length (okResponse 0 0) })

/-- The pseudo-commands: the descriptor's command, then the write or the read with the pair it returned; they stop at a
bound of 0 (30_encoding.md R73). -/
def Obligations.PseudoCommandsAreTwoCommands : Prop :=
  ∀ (n value : Data) (k : Nat) (s : State), n.toNat < 2 ^ s.params.width.bits →
    (2 ^ k ≤ n.toNat → n.toNat < 2 ^ (k + 1) →
      tbePut n value s = exec (.tbeWrite (BitVec.ofNat 8 k) (BitVec.ofNat 64 (2 ^ (k + 1) - n.toNat)) value)
        (s.responded (okResponse (BitVec.ofNat 8 k) (BitVec.ofNat 64 (2 ^ (k + 1) - n.toNat)))) ∧
      tbeGet n s = exec (.tbeRead (BitVec.ofNat 8 k) (BitVec.ofNat 64 (2 ^ (k + 1) - n.toNat)))
        (s.responded (okResponse (BitVec.ofNat 8 k) (BitVec.ofNat 64 (2 ^ (k + 1) - n.toNat))))) ∧
    (n.toNat = 0 →
      tbePut n value s = .next (s.responded (faultResponse .badBound 0)) ∧
      tbeGet n s = .next (s.responded (faultResponse .badBound 0)))

/-! ## The byte streams -/

/-- `SinkPut(b)`: an accepted byte is appended to `SNK`; a failed transfer leaves `SNK` alone, sets `BW.err` and raises
`SINK_FAIL` with the sink's information, which the response carries unchanged (20_memory.md section 1). -/
def Obligations.SinkPutHandsOverOneByte : Prop :=
  ∀ (b : Byte) (s : State),
    (s.sink.answer = .accept →
      sinkPut b s = .ok () { s with snk := s.snk ++ [b], sink := s.sink.advance }) ∧
    (∀ info, s.sink.answer = .fail info → ∃ t, sinkPut b s = .raise .sinkFail info t ∧
      t.snk = s.snk ∧ t.sink = s.sink.advance ∧ t.bw.err = true ∧ t.br = s.br ∧ t.spos = s.spos ∧
      t.responses = s.responses ∧
      finish (sinkPut b s) (fun _ => noResult) = .next (t.responded (faultResponse .sinkFail info)))

/-- `SourceGet()`: a delivered byte is returned and the source position moves by one; a failed transfer delivers no byte,
sets `BR.err` and raises `SOURCE_FAIL` with the source's information, which the response carries unchanged; a finite list of
bytes is delivered in order, and then the request fails (20_memory.md section 1). That the failed request leaves the source
position as it is is the model's inference (log 16); the spec leaves that to the environment. -/
def Obligations.SourceGetTakesOneByte : Prop :=
  ∀ s : State,
    (∀ b, s.source.answer = .byte b →
      sourceGet s = .ok b { s with spos := s.spos + 1, source := s.source.advance }) ∧
    (∀ info, s.source.answer = .fail info → ∃ t, sourceGet s = .raise .sourceFail info t ∧
      t.spos = s.spos ∧ t.source = s.source.advance ∧ t.br.err = true ∧ t.bw = s.bw ∧ t.snk = s.snk ∧
      t.responses = s.responses ∧
      finish (sourceGet s) (fun b => dataResult b.toNat) = .next (t.responded (faultResponse .sourceFail info))) ∧
    (∀ (bytes : List Byte) (info : Nat),
      s.source = { script := bytes.map SourceAnswer.byte, rest := .fail info } →
      s.source.delivers bytes ∧ (s.source.skip bytes.length).answer = .fail info)

/-- How many transfers a command makes at most, whatever the state and the environment; no command reaches both streams
(20_memory.md section 1, rule R41, an inference of the spec). -/
def Obligations.TransferCountsAreBounded : Prop :=
  ∀ (i : Instr) (s t : State), exec i s = .next t →
    ∃ bytes, t.snk = s.snk ++ bytes ∧ bytes.length ≤ sinkLimit s.params.width i ∧
      s.spos ≤ t.spos ∧ t.spos ≤ s.spos + sourceLimit s.params.width i ∧
      (bytes = [] ∨ t.spos = s.spos)

/-! ## Whole streams -/

/-- Round trip: raw values of any sizes and codewords of any descriptors, written one after another from a new writer and
closed, are read back, each with its matching command in the same order, by a new reader that is delivered the bytes the sink
got; every response is `OK` with the value, and exactly those bytes are consumed (43_tbe.md section 4; 42_bit_reader.md
section 2; 70_reset_and_hazards.md section 3; rules R117 and R148, inferences of the spec). -/
def Obligations.WrittenItemsReadBack : Prop :=
  ∀ (items : List Item) (s : State), (∀ x ∈ items, x.legal s.params.width) → s.bw = UnitRegs.fresh →
    s.sink.accepts (((items.map Item.bits).sum + 7) / 8) →
    ∃ t bytes, execAll (items.map Item.put ++ [.bwClose]) s = .next t ∧ t.snk = s.snk ++ bytes ∧
      ∀ r : State, r.params.width = s.params.width → r.br = UnitRegs.fresh → r.source.delivers bytes →
        ∃ r', execAll (items.map Item.get) r = .next r' ∧
          r'.responses = r.responses ++ items.map (fun x => okResponse 0 (BitVec.ofNat 64 x.value)) ∧
          r'.spos = r.spos + bytes.length

/-- The stream length law: `B` bits written from a new writer and closed are exactly `ceil(B / 8)` bytes in the sink, whose
padding bits are zero, and the writer is new again (41_bit_writer.md section 3, rule R99, an inference of the spec). -/
def Obligations.ClosedStreamHasCeilBytes : Prop :=
  ∀ (items : List Item) (s : State), (∀ x ∈ items, x.legal s.params.width) → s.bw = UnitRegs.fresh →
    s.sink.accepts (((items.map Item.bits).sum + 7) / 8) →
    ∃ t bytes, execAll (items.map Item.put ++ [.bwClose]) s = .next t ∧ t.snk = s.snk ++ bytes ∧
      bytes.length = ((items.map Item.bits).sum + 7) / 8 ∧ bytesNum bytes < 2 ^ (items.map Item.bits).sum ∧
      t.bw = UnitRegs.fresh
end

