-- ==== Sys2Proof/Laws/State.lean ====
section
/-! SUPPORT. One lemma per field of the state and per operation that updates it, true by rfl and tagged simp, so that no proof
unfolds a record update. -/

namespace Sys2Proof.Machine

/-! ### respond -/

@[simp] theorem respond_params (r : Result) (s : State) :
    (respond r s).params = s.params := rfl
@[simp] theorem respond_bw (r : Result) (s : State) :
    (respond r s).bw = s.bw := rfl
@[simp] theorem respond_br (r : Result) (s : State) :
    (respond r s).br = s.br := rfl
@[simp] theorem respond_snk (r : Result) (s : State) :
    (respond r s).snk = s.snk := rfl
@[simp] theorem respond_spos (r : Result) (s : State) :
    (respond r s).spos = s.spos := rfl
@[simp] theorem respond_sink (r : Result) (s : State) :
    (respond r s).sink = s.sink := rfl
@[simp] theorem respond_source (r : Result) (s : State) :
    (respond r s).source = s.source := rfl
@[simp] theorem respond_host (r : Result) (s : State) :
    (respond r s).host = s.host := rfl
@[simp] theorem respond_responses (r : Result) (s : State) :
    (respond r s).responses = s.responses ++ [{ status := .ok, rk := r.rk, data := r.data, ioinfo := 0 }] := rfl
@[simp] theorem respond_waiting (r : Result) (s : State) :
    (respond r s).waiting = s.waiting := rfl
@[simp] theorem respond_freeCount (r : Result) (s : State) :
    (respond r s).freeCount = s.freeCount := rfl

/-! ### raiseFault -/

@[simp] theorem raiseFault_params (st : Status) (info : Nat) (s : State) :
    (raiseFault st info s).params = s.params := rfl
@[simp] theorem raiseFault_bw (st : Status) (info : Nat) (s : State) :
    (raiseFault st info s).bw = s.bw := rfl
@[simp] theorem raiseFault_br (st : Status) (info : Nat) (s : State) :
    (raiseFault st info s).br = s.br := rfl
@[simp] theorem raiseFault_snk (st : Status) (info : Nat) (s : State) :
    (raiseFault st info s).snk = s.snk := rfl
@[simp] theorem raiseFault_spos (st : Status) (info : Nat) (s : State) :
    (raiseFault st info s).spos = s.spos := rfl
@[simp] theorem raiseFault_sink (st : Status) (info : Nat) (s : State) :
    (raiseFault st info s).sink = s.sink := rfl
@[simp] theorem raiseFault_source (st : Status) (info : Nat) (s : State) :
    (raiseFault st info s).source = s.source := rfl
@[simp] theorem raiseFault_host (st : Status) (info : Nat) (s : State) :
    (raiseFault st info s).host = s.host := rfl
@[simp] theorem raiseFault_responses (st : Status) (info : Nat) (s : State) :
    (raiseFault st info s).responses = s.responses ++ [{ status := st, rk := 0, data := 0, ioinfo := info }] := rfl
@[simp] theorem raiseFault_waiting (st : Status) (info : Nat) (s : State) :
    (raiseFault st info s).waiting = s.waiting := rfl
@[simp] theorem raiseFault_freeCount (st : Status) (info : Nat) (s : State) :
    (raiseFault st info s).freeCount = s.freeCount := rfl

/-! ### suspend -/

@[simp] theorem suspend_params (p : Port) (s : State) :
    (suspend p s).params = s.params := rfl
@[simp] theorem suspend_bw (p : Port) (s : State) :
    (suspend p s).bw = s.bw := rfl
@[simp] theorem suspend_br (p : Port) (s : State) :
    (suspend p s).br = s.br := rfl
@[simp] theorem suspend_snk (p : Port) (s : State) :
    (suspend p s).snk = s.snk := rfl
@[simp] theorem suspend_spos (p : Port) (s : State) :
    (suspend p s).spos = s.spos := rfl
@[simp] theorem suspend_sink (p : Port) (s : State) :
    (suspend p s).sink = s.sink := rfl
@[simp] theorem suspend_source (p : Port) (s : State) :
    (suspend p s).source = s.source := rfl
@[simp] theorem suspend_host (p : Port) (s : State) :
    (suspend p s).host = s.host := rfl
@[simp] theorem suspend_responses (p : Port) (s : State) :
    (suspend p s).responses = s.responses := rfl
@[simp] theorem suspend_waiting (p : Port) (s : State) :
    (suspend p s).waiting = some p := rfl
@[simp] theorem suspend_freeCount (p : Port) (s : State) :
    (suspend p s).freeCount = s.freeCount := rfl

/-! ### illegalCommand -/

@[simp] theorem illegalCommand_params (s : State) :
    (illegalCommand s).params = s.params := rfl
@[simp] theorem illegalCommand_bw (s : State) :
    (illegalCommand s).bw = s.bw := rfl
@[simp] theorem illegalCommand_br (s : State) :
    (illegalCommand s).br = s.br := rfl
@[simp] theorem illegalCommand_snk (s : State) :
    (illegalCommand s).snk = s.snk := rfl
@[simp] theorem illegalCommand_spos (s : State) :
    (illegalCommand s).spos = s.spos := rfl
@[simp] theorem illegalCommand_sink (s : State) :
    (illegalCommand s).sink = s.sink := rfl
@[simp] theorem illegalCommand_source (s : State) :
    (illegalCommand s).source = s.source := rfl
@[simp] theorem illegalCommand_host (s : State) :
    (illegalCommand s).host = s.host := rfl
@[simp] theorem illegalCommand_responses (s : State) :
    (illegalCommand s).responses = s.responses ++ [{ status := .illegalCmd, rk := 0, data := 0, ioinfo := 0 }] := rfl
@[simp] theorem illegalCommand_waiting (s : State) :
    (illegalCommand s).waiting = s.waiting := rfl
@[simp] theorem illegalCommand_freeCount (s : State) :
    (illegalCommand s).freeCount = s.freeCount := rfl

/-! ### setWriter -/

@[simp] theorem setWriter_params (b p : Nat) (s : State) :
    (setWriter b p s).params = s.params := rfl
@[simp] theorem setWriter_bw (b p : Nat) (s : State) :
    (setWriter b p s).bw = { s.bw with buf := BitVec.ofNat 8 b, pend := BitVec.ofNat 3 p } := rfl
@[simp] theorem setWriter_br (b p : Nat) (s : State) :
    (setWriter b p s).br = s.br := rfl
@[simp] theorem setWriter_snk (b p : Nat) (s : State) :
    (setWriter b p s).snk = s.snk := rfl
@[simp] theorem setWriter_spos (b p : Nat) (s : State) :
    (setWriter b p s).spos = s.spos := rfl
@[simp] theorem setWriter_sink (b p : Nat) (s : State) :
    (setWriter b p s).sink = s.sink := rfl
@[simp] theorem setWriter_source (b p : Nat) (s : State) :
    (setWriter b p s).source = s.source := rfl
@[simp] theorem setWriter_host (b p : Nat) (s : State) :
    (setWriter b p s).host = s.host := rfl
@[simp] theorem setWriter_responses (b p : Nat) (s : State) :
    (setWriter b p s).responses = s.responses := rfl
@[simp] theorem setWriter_waiting (b p : Nat) (s : State) :
    (setWriter b p s).waiting = s.waiting := rfl
@[simp] theorem setWriter_freeCount (b p : Nat) (s : State) :
    (setWriter b p s).freeCount = s.freeCount := rfl

/-! ### setReader -/

@[simp] theorem setReader_params (b p : Nat) (s : State) :
    (setReader b p s).params = s.params := rfl
@[simp] theorem setReader_bw (b p : Nat) (s : State) :
    (setReader b p s).bw = s.bw := rfl
@[simp] theorem setReader_br (b p : Nat) (s : State) :
    (setReader b p s).br = { s.br with buf := BitVec.ofNat 8 b, pend := BitVec.ofNat 3 p } := rfl
@[simp] theorem setReader_snk (b p : Nat) (s : State) :
    (setReader b p s).snk = s.snk := rfl
@[simp] theorem setReader_spos (b p : Nat) (s : State) :
    (setReader b p s).spos = s.spos := rfl
@[simp] theorem setReader_sink (b p : Nat) (s : State) :
    (setReader b p s).sink = s.sink := rfl
@[simp] theorem setReader_source (b p : Nat) (s : State) :
    (setReader b p s).source = s.source := rfl
@[simp] theorem setReader_host (b p : Nat) (s : State) :
    (setReader b p s).host = s.host := rfl
@[simp] theorem setReader_responses (b p : Nat) (s : State) :
    (setReader b p s).responses = s.responses := rfl
@[simp] theorem setReader_waiting (b p : Nat) (s : State) :
    (setReader b p s).waiting = s.waiting := rfl
@[simp] theorem setReader_freeCount (b p : Nat) (s : State) :
    (setReader b p s).freeCount = s.freeCount := rfl

/-! ### failWriter -/

@[simp] theorem failWriter_params (s : State) :
    (failWriter s).params = s.params := rfl
@[simp] theorem failWriter_bw (s : State) :
    (failWriter s).bw = UnitRegs.failed s.freeCount := rfl
@[simp] theorem failWriter_br (s : State) :
    (failWriter s).br = s.br := rfl
@[simp] theorem failWriter_snk (s : State) :
    (failWriter s).snk = s.snk := rfl
@[simp] theorem failWriter_spos (s : State) :
    (failWriter s).spos = s.spos := rfl
@[simp] theorem failWriter_sink (s : State) :
    (failWriter s).sink = s.sink := rfl
@[simp] theorem failWriter_source (s : State) :
    (failWriter s).source = s.source := rfl
@[simp] theorem failWriter_host (s : State) :
    (failWriter s).host = s.host := rfl
@[simp] theorem failWriter_responses (s : State) :
    (failWriter s).responses = s.responses := rfl
@[simp] theorem failWriter_waiting (s : State) :
    (failWriter s).waiting = s.waiting := rfl
@[simp] theorem failWriter_freeCount (s : State) :
    (failWriter s).freeCount = s.freeCount + 1 := rfl

/-! ### failReader -/

@[simp] theorem failReader_params (s : State) :
    (failReader s).params = s.params := rfl
@[simp] theorem failReader_bw (s : State) :
    (failReader s).bw = s.bw := rfl
@[simp] theorem failReader_br (s : State) :
    (failReader s).br = UnitRegs.failed s.freeCount := rfl
@[simp] theorem failReader_snk (s : State) :
    (failReader s).snk = s.snk := rfl
@[simp] theorem failReader_spos (s : State) :
    (failReader s).spos = s.spos := rfl
@[simp] theorem failReader_sink (s : State) :
    (failReader s).sink = s.sink := rfl
@[simp] theorem failReader_source (s : State) :
    (failReader s).source = s.source := rfl
@[simp] theorem failReader_host (s : State) :
    (failReader s).host = s.host := rfl
@[simp] theorem failReader_responses (s : State) :
    (failReader s).responses = s.responses := rfl
@[simp] theorem failReader_waiting (s : State) :
    (failReader s).waiting = s.waiting := rfl
@[simp] theorem failReader_freeCount (s : State) :
    (failReader s).freeCount = s.freeCount + 1 := rfl

/-! ### hwReset -/

@[simp] theorem hwReset_params (s : State) :
    (hwReset s).params = s.params := rfl
@[simp] theorem hwReset_bw (s : State) :
    (hwReset s).bw = UnitRegs.fresh := rfl
@[simp] theorem hwReset_br (s : State) :
    (hwReset s).br = UnitRegs.fresh := rfl
@[simp] theorem hwReset_snk (s : State) :
    (hwReset s).snk = s.snk := rfl
@[simp] theorem hwReset_spos (s : State) :
    (hwReset s).spos = s.spos := rfl
@[simp] theorem hwReset_sink (s : State) :
    (hwReset s).sink = s.sink := rfl
@[simp] theorem hwReset_source (s : State) :
    (hwReset s).source = s.source := rfl
@[simp] theorem hwReset_host (s : State) :
    (hwReset s).host = s.host := rfl
@[simp] theorem hwReset_responses (s : State) :
    (hwReset s).responses = s.responses := rfl
@[simp] theorem hwReset_waiting (s : State) :
    (hwReset s).waiting = none := rfl
@[simp] theorem hwReset_freeCount (s : State) :
    (hwReset s).freeCount = s.freeCount := rfl

/-! ### abandon -/

@[simp] theorem abandon_params (s t : State) :
    (abandon s t).params = t.params := rfl
@[simp] theorem abandon_bw (s t : State) :
    (abandon s t).bw = UnitRegs.fresh := rfl
@[simp] theorem abandon_br (s t : State) :
    (abandon s t).br = UnitRegs.fresh := rfl
@[simp] theorem abandon_snk (s t : State) :
    (abandon s t).snk = t.snk := rfl
@[simp] theorem abandon_spos (s t : State) :
    (abandon s t).spos = t.spos := rfl
@[simp] theorem abandon_sink (s t : State) :
    (abandon s t).sink = t.sink := rfl
@[simp] theorem abandon_source (s t : State) :
    (abandon s t).source = t.source := rfl
@[simp] theorem abandon_host (s t : State) :
    (abandon s t).host = t.host := rfl
@[simp] theorem abandon_responses (s t : State) :
    (abandon s t).responses = s.responses := rfl
@[simp] theorem abandon_waiting (s t : State) :
    (abandon s t).waiting = none := rfl
@[simp] theorem abandon_freeCount (s t : State) :
    (abandon s t).freeCount = t.freeCount := rfl

/-! ### the registers of a unit -/

@[simp] theorem fresh_buf : UnitRegs.fresh.buf = 0 := rfl
@[simp] theorem fresh_pend : UnitRegs.fresh.pend = 0 := rfl
@[simp] theorem fresh_err : UnitRegs.fresh.err = false := rfl
@[simp] theorem failed_err (n : Nat) : (UnitRegs.failed n).err = true := rfl

/-! ### the results of a command -/

@[simp] theorem noResult_rk : noResult.rk = 0 := rfl
@[simp] theorem noResult_data : noResult.data = 0 := rfl
@[simp] theorem dataResult_rk (v : Nat) : (dataResult v).rk = 0 := rfl
@[simp] theorem dataResult_data (v : Nat) : (dataResult v).data = BitVec.ofNat 64 v := rfl

/-! ### procedures one after another, and the end of a command -/

@[simp] theorem bind_ok {α β : Type} (a : α) (s : State) (f : α → State → Res β) :
    (Res.ok a s).bind f = f a s := rfl
@[simp] theorem bind_raise {α β : Type} (st : Status) (info : Nat) (s : State) (f : α → State → Res β) :
    (Res.raise st info s : Res α).bind f = .raise st info s := rfl
@[simp] theorem bind_hang {α β : Type} (p : Port) (s : State) (f : α → State → Res β) :
    (Res.hang p s : Res α).bind f = .hang p s := rfl
@[simp] theorem finish_ok {α : Type} (a : α) (s : State) (result : α → Result) :
    finish (.ok a s) result = .next (respond (result a) s) := rfl
@[simp] theorem finish_raise {α : Type} (st : Status) (info : Nat) (s : State) (result : α → Result) :
    finish (.raise st info s) result = .next (raiseFault st info s) := rfl
@[simp] theorem finish_hang {α : Type} (p : Port) (s : State) (result : α → Result) :
    finish (.hang p s) result = .next (suspend p s) := rfl

end Sys2Proof.Machine
end

