-- ==== Sys2Proof/Laws/Streams.lean ====
section
/-! SUPPORT. What the shared operations over the byte streams can do: one lemma per operation and outcome, closed forms for
whole writes and reads of bit strings. -/

namespace Sys2Proof.Machine

/-! ### operands -/

theorem mask_and (v s : Nat) : v &&& mask s = v % 2 ^ s := Nat.and_two_pow_sub_one_eq_mod v s

theorem byteAt_toNat (v off : Nat) : (byteAt v off).toNat = v / 2 ^ off % 256 := by
  simp [byteAt, Nat.shiftRight_eq_div_pow]

theorem byteAt_byteAt_zero (v off : Nat) : byteAt (v >>> off) 0 = byteAt v off := by
  simp [byteAt]

theorem byteAt_shift (v a b : Nat) : byteAt (v >>> a) b = byteAt v (a + b) := by
  simp [byteAt, Nat.shiftRight_add]

/-! ### chunks -/

theorem chunksFrom_of_le (f size off : Nat) (h : size ≤ off) : chunksFrom f size off = [] := by
  cases f with
  | zero => rfl
  | succ f => simp [chunksFrom, show size - off = 0 by omega]

/-- The loop from bit `off + 8` on is the loop from bit `off` on over a size smaller by 8, its offsets moved up by 8. -/
theorem chunksFrom_add_eight (f size off : Nat) :
    chunksFrom f (size + 8) (off + 8) =
      (chunksFrom f size off).map fun c => { c with offset := c.offset + 8 } := by
  induction f generalizing off with
  | zero => rfl
  | succ f ih =>
    have h : size + 8 - (off + 8) = size - off := by omega
    simp only [chunksFrom, h]
    split
    · simp [ih (off + 8)]
    · split <;> simp

theorem chunksFrom_fuel (f g size off : Nat) (hf : (size - off) / 8 < f) (hg : (size - off) / 8 < g) :
    chunksFrom f size off = chunksFrom g size off := by
  induction f generalizing g off with
  | zero => omega
  | succ f ih =>
    cases g with
    | zero => omega
    | succ g =>
      simp only [chunksFrom]
      split
      · rw [ih g (off + 8) (by omega) (by omega)]
      · rfl

theorem chunks_small (size : Nat) (h0 : 0 < size) (h : size < 8) :
    chunks size = [{ offset := 0, chunkSize := size }] := by
  have : size / 8 + 1 = 0 + 1 := by omega
  simp [chunks, chunksFrom, show ¬ size ≥ 8 by omega, h0]

theorem chunks_zero : chunks 0 = [] := rfl

/-- The chunks of `size + 8`: one whole chunk at offset 0, then the chunks of `size` moved up by 8. -/
theorem chunks_add_eight (size : Nat) :
    chunks (size + 8) = { offset := 0, chunkSize := 8 } ::
      (chunks size).map fun c => { c with offset := c.offset + 8 } := by
  have h : (size + 8) / 8 = size / 8 + 1 := by omega
  rw [chunks, chunks, h]
  show (if size + 8 - 0 ≥ 8 then _ else _) = _
  rw [if_pos (by omega)]
  rw [← chunksFrom_add_eight]

/-! ### bits of numbers -/

theorem testBit_mod_two_pow (v s j : Nat) : (v % 2 ^ s).testBit j = (decide (j < s) && v.testBit j) :=
  Nat.testBit_mod_two_pow v s j

/-- The low `a + b` bits of `v`: its low `a` bits, and the next `b` bits above them. -/
theorem mod_two_pow_add (v a b : Nat) :
    v % 2 ^ (a + b) = (v % 2 ^ a) ||| (((v >>> a) % 2 ^ b) <<< a) := by
  apply Nat.eq_of_testBit_eq
  intro j
  simp only [Nat.testBit_or, Nat.testBit_shiftLeft, Nat.testBit_mod_two_pow, Nat.testBit_shiftRight]
  by_cases h : j < a
  · simp [h, show ¬ a ≤ j by omega, show j < a + b by omega]
  · have e : a + (j - a) = j := by omega
    simp only [h, e, show a ≤ j by omega, decide_false, Bool.false_and, Bool.false_or, decide_true, Bool.true_and]
    congr 1
    simp only [decide_eq_decide]
    omega

theorem or_lt_two_pow {x y n : Nat} (hx : x < 2 ^ n) (hy : y < 2 ^ n) : x ||| y < 2 ^ n := Nat.or_lt_two_pow hx hy

theorem shiftLeft_lt {x s n : Nat} (hx : x < 2 ^ n) : x <<< s < 2 ^ (n + s) := by
  rw [Nat.shiftLeft_eq, Nat.pow_add]
  exact Nat.mul_lt_mul_of_pos_right hx (Nat.two_pow_pos s)

theorem shiftRight_lt {x s n : Nat} (hx : x < 2 ^ (n + s)) : x >>> s < 2 ^ n := by
  rw [Nat.shiftRight_eq_div_pow]
  apply Nat.div_lt_of_lt_mul
  rwa [Nat.mul_comm, ← Nat.pow_add]

theorem shiftRight_or (x y s : Nat) : (x ||| y) >>> s = (x >>> s) ||| (y >>> s) := Nat.shiftRight_or_distrib

theorem shiftLeft_shiftRight_le (x s t : Nat) (h : t ≤ s) : (x <<< s) >>> t = x <<< (s - t) := by
  apply Nat.eq_of_testBit_eq
  intro j
  simp only [Nat.testBit_shiftRight, Nat.testBit_shiftLeft]
  have e : t + j - s = j - (s - t) := by omega
  rw [e]
  congr 1
  simp only [decide_eq_decide]
  omega

/-- A byte of a bit string does not depend on bits placed above it. -/
theorem byteAt_or_shift_above (x y s off : Nat) (h : off + 8 ≤ s) : byteAt (x ||| y <<< s) off = byteAt x off := by
  apply BitVec.eq_of_toNat_eq
  simp only [byteAt, BitVec.toNat_ofNat, shiftRight_or, shiftLeft_shiftRight_le _ _ _ (show off ≤ s by omega)]
  apply Nat.eq_of_testBit_eq
  intro j
  simp only [Nat.testBit_mod_two_pow, Nat.testBit_or, Nat.testBit_shiftLeft]
  by_cases hj : j < 8
  · simp [show ¬ s - off ≤ j by omega]
  · simp [hj]

/-! ### the environment's coming answers -/

theorem Sink.skip_add (a b : Nat) (k : Sink) : k.skip (a + b) = (k.skip a).skip b := by
  induction a generalizing k with
  | zero => simp [Sink.skip]
  | succ a ih => rw [show a + 1 + b = (a + b) + 1 by omega]; exact ih k.advance

theorem Sink.accepts_add (a b : Nat) (k : Sink) : k.accepts (a + b) ↔ k.accepts a ∧ (k.skip a).accepts b := by
  induction a generalizing k with
  | zero => simp [Sink.accepts, Sink.skip]
  | succ a ih =>
    rw [show a + 1 + b = (a + b) + 1 by omega]
    simp only [Sink.accepts, Sink.skip, ih k.advance, and_assoc]

theorem Source.skip_add (a b : Nat) (k : Source) : k.skip (a + b) = (k.skip a).skip b := by
  induction a generalizing k with
  | zero => simp [Source.skip]
  | succ a ih => rw [show a + 1 + b = (a + b) + 1 by omega]; exact ih k.advance

theorem Source.delivers_append (xs ys : List Byte) (k : Source) :
    k.delivers (xs ++ ys) ↔ k.delivers xs ∧ (k.skip xs.length).delivers ys := by
  induction xs generalizing k with
  | nil => simp [Source.delivers, Source.skip]
  | cons x xs ih => simp only [List.cons_append, Source.delivers, List.length_cons, Source.skip, ih k.advance, and_assoc]

/-! ### writing bit strings -/

theorem pendingWith_lt (v size : Nat) (s : State) : pendingWith v size s < 2 ^ (8 * putCount size s + 8) := by
  have hp : s.bw.pend.toNat < 8 := s.bw.pend.isLt
  have hb : s.bw.buf.toNat < 2 ^ 8 := s.bw.buf.isLt
  apply or_lt_two_pow
  · exact lt_of_lt_of_le hb (Nat.pow_le_pow_right (by omega) (by omega))
  · refine lt_of_lt_of_le (shiftLeft_lt (Nat.mod_lt v (Nat.two_pow_pos size))) (Nat.pow_le_pow_right (by omega) ?_)
    simp only [putCount]
    omega

theorem pendingWith_add (v a b : Nat) (s : State) :
    pendingWith v (a + b) s = pendingWith v a s ||| ((v >>> a) % 2 ^ b) <<< (s.bw.pend.toNat + a) := by
  simp only [pendingWith, mod_two_pow_add v a b, Nat.shiftLeft_or_distrib, ← Nat.shiftLeft_add, Nat.or_assoc]
  rw [Nat.add_comm a]

theorem wrote_pend (s : State) (v a : Nat) : (s.wrote v a).bw.pend.toNat = (s.bw.pend.toNat + a) % 8 := by
  simp [State.wrote]

theorem putCount_add (s : State) (v a b : Nat) :
    putCount (a + b) s = putCount a s + putCount b (s.wrote v a) := by
  simp only [putCount, wrote_pend]
  omega

theorem pendingWith_wrote (s : State) (v a b : Nat) :
    pendingWith (v >>> a) b (s.wrote v a) = pendingWith v (a + b) s >>> (8 * putCount a s) := by
  have h1 : (s.wrote v a).bw.buf.toNat = pendingWith v a s >>> (8 * putCount a s) := by
    have := shiftRight_lt (s := 8 * putCount a s) (n := 8)
      (lt_of_lt_of_eq (pendingWith_lt v a s) (by rw [Nat.add_comm]))
    show (byteAt _ _).toNat = _
    simp only [byteAt, BitVec.toNat_ofNat]
    exact Nat.mod_eq_of_lt this
  have h2 : (s.wrote v a).bw.pend.toNat = s.bw.pend.toNat + a - 8 * putCount a s := by
    rw [wrote_pend]; simp only [putCount]; omega
  rw [pendingWith, h1, h2, pendingWith_add, shiftRight_or, shiftLeft_shiftRight_le _ _ _ (by simp only [putCount]; omega)]

theorem streamBytes_add (x n m : Nat) : streamBytes x (n + m) = streamBytes x n ++ streamBytes (x >>> (8 * n)) m := by
  simp only [streamBytes, List.range_add, List.map_append, List.map_map]
  congr 1
  apply List.map_congr_left
  intro i _
  simp only [Function.comp, byteAt_shift, Nat.mul_add]

theorem streamBytes_or_shift_above (x y s n : Nat) (h : 8 * n ≤ s) :
    streamBytes (x ||| y <<< s) n = streamBytes x n := by
  apply List.map_congr_left
  intro i hi
  have := List.mem_range.1 hi
  exact byteAt_or_shift_above x y s (8 * i) (by omega)

/-- Writing is concatenation of bit strings (41_bit_writer.md R97), in closed form. -/
theorem wrote_wrote (s : State) (v a b : Nat) : (s.wrote v a).wrote (v >>> a) b = s.wrote v (a + b) := by
  have hc := putCount_add s v a b
  have hle : 8 * putCount a s ≤ s.bw.pend.toNat + a := by simp only [putCount]; omega
  have e1 : byteAt (pendingWith (v >>> a) b (s.wrote v a)) (8 * putCount b (s.wrote v a))
      = byteAt (pendingWith v (a + b) s) (8 * putCount (a + b) s) := by
    rw [pendingWith_wrote, byteAt_shift, hc, Nat.mul_add]
  have e2 : ((s.wrote v a).bw.pend.toNat + b) % 8 = (s.bw.pend.toNat + (a + b)) % 8 := by
    rw [wrote_pend]; omega
  have e3 : streamBytes (pendingWith v a s) (putCount a s)
        ++ streamBytes (pendingWith (v >>> a) b (s.wrote v a)) (putCount b (s.wrote v a))
      = streamBytes (pendingWith v (a + b) s) (putCount (a + b) s) := by
    rw [hc, streamBytes_add, pendingWith_wrote, pendingWith_add v a b s,
      streamBytes_or_shift_above _ _ _ _ hle]
  rw [State.wrote, e1, e2]
  simp only [State.wrote, List.append_assoc, ← Sink.skip_add]
  simp only [State.wrote] at e3 hc
  rw [e3, ← hc]

end Sys2Proof.Machine
end

