-- ==== Sys2Proof/Laws/Reading.lean ====
section
/-! SUPPORT. What SourceGet, Read8 and ReadBits can do, outcome by outcome (20_memory.md R43; 42_bit_reader.md R111, R114). -/

namespace Sys2Proof.Machine

/-! ### SourceGet -/

theorem sourceGet_byte (s : State) (b : Byte) (h : s.source.answer = .byte b) :
    sourceGet s = .ok b { s with spos := s.spos + 1, source := s.source.advance } := by
  simp [sourceGet, h]

theorem sourceGet_fail (s : State) (info : Nat) (h : s.source.answer = .fail info) :
    sourceGet s = .raise .sourceFail info (failReader { s with source := s.source.advance }) := by
  simp [sourceGet, h]

theorem sourceGet_silent (s : State) (h : s.source.answer = .silent) :
    sourceGet s = .hang .source { s with source := s.source.advance } := by
  simp [sourceGet, h]

/-! ### the coming bits of a reader -/

theorem bytesNum_lt (bs : List Byte) : bytesNum bs < 2 ^ (8 * bs.length) := by
  induction bs with
  | nil => simp [bytesNum]
  | cons b bs ih =>
    have hb : b.toNat < 256 := b.isLt
    simp only [bytesNum, List.length_cons, Nat.mul_add, Nat.pow_add]
    omega

theorem bytesNum_append (xs ys : List Byte) :
    bytesNum (xs ++ ys) = bytesNum xs ||| (bytesNum ys <<< (8 * xs.length)) := by
  have key : bytesNum (xs ++ ys) = bytesNum ys * 2 ^ (8 * xs.length) + bytesNum xs := by
    induction xs with
    | nil => simp [bytesNum]
    | cons x xs ih =>
      simp only [List.cons_append, bytesNum, ih, List.length_cons, Nat.mul_add, Nat.pow_add]
      ring
  rw [key, ← Nat.shiftLeft_eq, Nat.shiftLeft_add_eq_or_of_lt (bytesNum_lt xs), Nat.or_comm]

theorem comingBits_nil (s : State) : comingBits [] s = s.br.buf.toNat := by
  simp [comingBits, bytesNum]

theorem comingBits_append (xs ys : List Byte) (s : State) :
    comingBits (xs ++ ys) s = comingBits xs s ||| (bytesNum ys <<< (s.br.pend.toNat + 8 * xs.length)) := by
  simp only [comingBits, bytesNum_append, Nat.shiftLeft_or_distrib, ← Nat.shiftLeft_add, Nat.or_assoc]
  rw [Nat.add_comm (8 * xs.length)]

/-- After a read that fetched as many bytes as it needed, the count of unconsumed bits is exact. -/
theorem hasRead_pend (s : State) (bs : List Byte) (size : Nat) (h : bs.length = getCount size s) :
    (s.hasRead bs size).br.pend.toNat = s.br.pend.toNat + 8 * bs.length - size := by
  have hp : s.br.pend.toNat < 8 := s.br.pend.isLt
  simp only [State.hasRead, BitVec.toNat_ofNat]
  apply Nat.mod_eq_of_lt
  rw [h]
  simp only [getCount]
  omega

theorem getCount_le (s : State) (size : Nat) : size ≤ s.br.pend.toNat + 8 * getCount size s := by
  simp only [getCount]
  omega

theorem comingBits_shift_lt (s : State) (bs : List Byte) (size : Nat) (h : bs.length = getCount size s) :
    comingBits bs s >>> size < 2 ^ 8 := by
  have hp : s.br.pend.toNat < 8 := s.br.pend.isLt
  have hb : s.br.buf.toNat < 2 ^ 8 := s.br.buf.isLt
  apply shiftRight_lt
  apply or_lt_two_pow
  · exact lt_of_lt_of_le hb (Nat.pow_le_pow_right (by omega) (by omega))
  · refine lt_of_lt_of_le (shiftLeft_lt (bytesNum_lt bs)) (Nat.pow_le_pow_right (by omega) ?_)
    rw [h]
    simp only [getCount]
    omega

theorem hasRead_buf (s : State) (bs : List Byte) (size : Nat) (h : bs.length = getCount size s) :
    (s.hasRead bs size).br.buf.toNat = comingBits bs s >>> size := by
  show (byteAt _ _).toNat = _
  simp only [byteAt, BitVec.toNat_ofNat]
  exact Nat.mod_eq_of_lt (comingBits_shift_lt s bs size h)

theorem getCount_add (s : State) (bs : List Byte) (a b : Nat) (h : bs.length = getCount a s) :
    getCount (a + b) s = bs.length + getCount b (s.hasRead bs a) := by
  have hp : s.br.pend.toNat < 8 := s.br.pend.isLt
  simp only [getCount, hasRead_pend s bs a h]
  rw [h]
  simp only [getCount]
  omega

theorem comingBits_hasRead (s : State) (xs ys : List Byte) (a : Nat) (h : xs.length = getCount a s) :
    comingBits ys (s.hasRead xs a) = comingBits (xs ++ ys) s >>> a := by
  have hle := getCount_le s a
  rw [← h] at hle
  rw [comingBits, hasRead_buf s xs a h, hasRead_pend s xs a h, comingBits_append, shiftRight_or,
    shiftLeft_shiftRight_le _ _ _ hle]

/-- Reading is splitting of a bit string (42_bit_reader.md R117), in closed form. -/
theorem hasRead_hasRead (s : State) (xs ys : List Byte) (a b : Nat) (hx : xs.length = getCount a s) :
    (s.hasRead xs a).hasRead ys b = s.hasRead (xs ++ ys) (a + b) := by
  have hle := getCount_le s a
  rw [← hx] at hle
  rw [State.hasRead, comingBits_hasRead s xs ys a hx, hasRead_pend s xs a hx]
  have e : s.br.pend.toNat + 8 * xs.length - a + 8 * ys.length - b =
      s.br.pend.toNat + 8 * (xs.length + ys.length) - (a + b) := by omega
  simp only [State.hasRead, byteAt_shift, List.length_append, Source.skip_add, e, Nat.add_assoc]

/-! ### Read8 -/

theorem hasRead_zero (s : State) : s.hasRead [] 0 = s := by
  simp [State.hasRead, comingBits_nil, byteAt, Source.skip]

theorem getCount_le_eight (s : State) (size : Nat) (hs : size ≤ 8) :
    getCount size s = if s.br.pend.toNat < size then 1 else 0 := by
  simp only [getCount]
  split <;> omega

theorem read8_ok (size : Nat) (s : State) (bs : List Byte) (hs : size ≤ 8) (hl : bs.length = getCount size s)
    (h : s.source.delivers bs) :
    read8 size s = .ok (BitVec.ofNat 8 (comingBits bs s % 2 ^ size)) (s.hasRead bs size) := by
  rw [getCount_le_eight s size hs] at hl
  by_cases hp : s.br.pend.toNat < size
  · rw [if_pos hp] at hl
    obtain ⟨b, rfl⟩ := List.length_eq_one_iff.1 hl
    simp only [read8, if_pos hp, sourceGet_byte s b h.1, bind_ok, takeBits, mask_and]
    simp [State.hasRead, setReader, comingBits, bytesNum, byteAt, Source.skip]
  · rw [if_neg hp] at hl
    obtain rfl := List.length_eq_zero_iff.1 hl
    simp only [read8, if_neg hp, takeBits, mask_and, comingBits_nil]
    simp [State.hasRead, setReader, comingBits_nil, byteAt, Source.skip]

theorem read8_fail (size : Nat) (s : State) (info : Nat) (hp : s.br.pend.toNat < size)
    (h : s.source.answer = .fail info) :
    read8 size s = .raise .sourceFail info (failReader { s with source := s.source.advance }) := by
  simp only [read8, if_pos hp, sourceGet_fail s info h, bind_raise]

theorem read8_silent (size : Nat) (s : State) (hp : s.br.pend.toNat < size) (h : s.source.answer = .silent) :
    read8 size s = .hang .source { s with source := s.source.advance } := by
  simp only [read8, if_pos hp, sourceGet_silent s h, bind_hang]

/-! ### ReadBits -/

theorem readChunks_acc (cs : List Chunk) (r : Nat) (s : State) :
    readChunks r cs s = (readChunks 0 cs s).bind fun v t => .ok (r ||| v) t := by
  induction cs generalizing r s with
  | nil => simp [readChunks]
  | cons c cs ih =>
    simp only [readChunks]
    cases read8 c.chunkSize s with
    | ok b t =>
      simp only [bind_ok]
      rw [ih, ih (0 ||| b.toNat <<< c.offset)]
      cases readChunks 0 cs t <;> simp [Nat.or_assoc]
    | raise st info t => rfl
    | hang p t => rfl

theorem readChunks_shift (cs : List Chunk) (s : State) :
    readChunks 0 (cs.map fun c => { c with offset := c.offset + 8 }) s =
      (readChunks 0 cs s).bind fun v t => .ok (v <<< 8) t := by
  induction cs generalizing s with
  | nil => simp [readChunks]
  | cons c cs ih =>
    simp only [List.map_cons, readChunks]
    cases read8 c.chunkSize s with
    | ok b t =>
      simp only [bind_ok]
      rw [readChunks_acc, ih, readChunks_acc cs (0 ||| b.toNat <<< c.offset)]
      cases readChunks 0 cs t <;> simp [Nat.shiftLeft_or_distrib, ← Nat.shiftLeft_add]
    | raise st info t => rfl
    | hang p t => rfl

/-- A read of 8 bits or more: its lowest byte, then the rest above it. -/
theorem readBits_add_eight (size : Nat) (s : State) :
    readBits (size + 8) s =
      (read8 8 s).bind fun b t => (readBits size t).bind fun v t' => .ok (b.toNat ||| (v <<< 8)) t' := by
  simp only [readBits, chunks_add_eight, readChunks]
  cases read8 8 s with
  | ok b t =>
    simp only [bind_ok]
    rw [readChunks_acc, readChunks_shift]
    cases readChunks 0 (chunks size) t <;> simp
  | raise st info t => rfl
  | hang p t => rfl

theorem getCount_zero (s : State) : getCount 0 s = 0 := by simp [getCount]

/-- A read of fewer than 8 bits is one Read8. -/
theorem readBits_small (size : Nat) (s : State) (h : size < 8) :
    readBits size s = (read8 size s).bind fun b t => .ok b.toNat t := by
  rcases Nat.eq_zero_or_pos size with rfl | h0
  · rw [read8_ok 0 s [] (by omega) (by simp [getCount_zero]) trivial, hasRead_zero]
    simp [readBits, chunks_zero, readChunks, Nat.mod_one]
  · simp [readBits, chunks_small size h0 h, readChunks]

theorem getCount_eight (s : State) : getCount 8 s = 1 := by
  have := s.br.pend.isLt
  simp only [getCount]
  omega

theorem toNat_ofNat_mod (x size : Nat) (h : size ≤ 8) : (BitVec.ofNat 8 (x % 2 ^ size)).toNat = x % 2 ^ size := by
  simp only [BitVec.toNat_ofNat]
  exact Nat.mod_eq_of_lt (lt_of_lt_of_le (Nat.mod_lt _ (Nat.two_pow_pos _)) (Nat.pow_le_pow_right (by omega) h))

/-- Where the source delivers every byte the read needs, ReadBits is the closed form (42_bit_reader.md R116, R117). -/
theorem readBits_ok (size : Nat) (s : State) (bs : List Byte) (hl : bs.length = getCount size s)
    (h : s.source.delivers bs) :
    readBits size s = .ok (comingBits bs s % 2 ^ size) (s.hasRead bs size) := by
  induction size using Nat.strong_induction_on generalizing s bs with
  | _ size ih =>
    by_cases hs : size < 8
    · rw [readBits_small size s hs, read8_ok size s bs (by omega) hl h, bind_ok, toNat_ofNat_mod _ _ (by omega)]
    · obtain ⟨n, rfl⟩ : ∃ n, size = n + 8 := ⟨size - 8, by omega⟩
      have hpos : 0 < bs.length := by rw [hl]; simp only [getCount]; have := s.br.pend.isLt; omega
      obtain ⟨b, ys, rfl⟩ : ∃ b ys, bs = b :: ys := by
        cases bs with
        | nil => simp at hpos
        | cons b ys => exact ⟨b, ys, rfl⟩
      have h1 : [b].length = getCount 8 s := by rw [getCount_eight]; rfl
      have hadd := getCount_add s [b] 8 n h1
      rw [Nat.add_comm 8 n, ← hl] at hadd
      have hy : ys.length = getCount n (s.hasRead [b] 8) := by
        simp only [List.length_cons, List.length_nil] at hadd; omega
      have hk : (s.hasRead [b] 8).source = s.source.advance := rfl
      have hbs : [b] ++ ys = b :: ys := rfl
      rw [readBits_add_eight, read8_ok 8 s [b] (by omega) h1 ⟨h.1, trivial⟩, bind_ok,
        ih n (by omega) _ ys hy (by rw [hk]; exact h.2), bind_ok, toNat_ofNat_mod _ _ (by omega),
        hasRead_hasRead s [b] ys 8 n h1, comingBits_hasRead s [b] ys 8 h1, hbs, Nat.add_comm n 8,
        mod_two_pow_add (comingBits (b :: ys) s) 8 n]
      congr 2
      rw [← hbs, comingBits_append]
      apply Nat.eq_of_testBit_eq
      intro i
      simp only [Nat.testBit_mod_two_pow, Nat.testBit_or, Nat.testBit_shiftLeft, List.length_cons, List.length_nil]
      by_cases hi : i < 8
      · simp [show ¬ s.br.pend.toNat + 8 ≤ i by omega]
      · simp [hi]

/-- Where the source does not deliver the byte after `bs`, a read that needs it stops there, `m` bits of it done. -/
theorem readBits_stop (size : Nat) (s : State) (bs : List Byte) (hj : bs.length < getCount size s)
    (h : s.source.delivers bs) :
    ∃ m, m ≤ size ∧ getCount m s = bs.length ∧
      (∀ info, (s.source.skip bs.length).answer = .fail info → readBits size s =
        .raise .sourceFail info (failReader { s.hasRead bs m with source := s.source.skip (bs.length + 1) })) ∧
      ((s.source.skip bs.length).answer = .silent → readBits size s =
        .hang .source { s.hasRead bs m with source := s.source.skip (bs.length + 1) }) := by
  induction size using Nat.strong_induction_on generalizing s bs with
  | _ size ih =>
    have hp : s.br.pend.toNat < 8 := s.br.pend.isLt
    by_cases hs : size < 8
    · rw [getCount_le_eight s size (by omega)] at hj
      split at hj
      · rename_i hlt
        obtain rfl := List.length_eq_zero_iff.1 (by omega : bs.length = 0)
        refine ⟨0, by omega, by rw [getCount_zero]; rfl, ?_, ?_⟩
        · intro info hf
          rw [readBits_small size s hs, read8_fail size s info hlt hf, bind_raise, hasRead_zero]
          rfl
        · intro hf
          rw [readBits_small size s hs, read8_silent size s hlt hf, bind_hang, hasRead_zero]
          rfl
      · omega
    · obtain ⟨n, rfl⟩ : ∃ n, size = n + 8 := ⟨size - 8, by omega⟩
      rw [readBits_add_eight]
      cases bs with
      | nil =>
        refine ⟨0, by omega, by rw [getCount_zero]; rfl, ?_, ?_⟩
        · intro info hf
          rw [read8_fail 8 s info (by omega) hf, bind_raise, hasRead_zero]
          rfl
        · intro hf
          rw [read8_silent 8 s (by omega) hf, bind_hang, hasRead_zero]
          rfl
      | cons b ys =>
        have h1 : [b].length = getCount 8 s := by rw [getCount_eight]; rfl
        have hadd := getCount_add s [b] 8 n h1
        rw [Nat.add_comm 8 n] at hadd
        have hy : ys.length < getCount n (s.hasRead [b] 8) := by
          simp only [List.length_cons, List.length_nil] at hadd hj; omega
        have hk : (s.hasRead [b] 8).source = s.source.advance := rfl
        obtain ⟨m, hm, hm', hfail, hsil⟩ := ih n (by omega) (s.hasRead [b] 8) ys hy (by rw [hk]; exact h.2)
        rw [hk, hasRead_hasRead s [b] ys 8 m h1] at hfail hsil
        rw [read8_ok 8 s [b] (by omega) h1 ⟨h.1, trivial⟩, bind_ok]
        refine ⟨8 + m, by omega, ?_, ?_, ?_⟩
        · rw [getCount_add s [b] 8 m h1, hm']; simp [Nat.add_comm]
        · intro info hf
          rw [hfail info hf, bind_raise]
          rfl
        · intro hf
          rw [hsil hf, bind_hang]
          rfl

/-- The coming answers either deliver `n` bytes or fewer and then none. -/
theorem Source.delivers_or_stops (n : Nat) (k : Source) :
    ∃ bs, k.delivers bs ∧ (bs.length = n ∨ bs.length < n ∧
      ((∃ info, (k.skip bs.length).answer = .fail info) ∨ (k.skip bs.length).answer = .silent)) := by
  induction n generalizing k with
  | zero => exact ⟨[], trivial, .inl rfl⟩
  | succ n ih =>
    cases ha : k.answer with
    | byte b =>
      obtain ⟨bs, hd, h⟩ := ih k.advance
      refine ⟨b :: bs, ⟨ha, hd⟩, ?_⟩
      rcases h with h | ⟨h, hstop⟩
      · exact .inl (by simp [h])
      · exact .inr ⟨by simpa using h, hstop⟩
    | fail info => exact ⟨[], trivial, .inr ⟨by simp, .inl ⟨info, ha⟩⟩⟩
    | silent => exact ⟨[], trivial, .inr ⟨by simp, .inr ha⟩⟩

/-- Everything a whole read can do: it completes, or it stops at a byte the source does not deliver. -/
theorem readBits_cases (size : Nat) (s : State) :
    ∃ bs, s.source.delivers bs ∧
      ((bs.length = getCount size s ∧
          readBits size s = .ok (comingBits bs s % 2 ^ size) (s.hasRead bs size)) ∨
       (bs.length < getCount size s ∧ ∃ m, m ≤ size ∧ getCount m s = bs.length ∧
        ((∃ info, (s.source.skip bs.length).answer = .fail info ∧ readBits size s =
            .raise .sourceFail info (failReader { s.hasRead bs m with source := s.source.skip (bs.length + 1) })) ∨
         ((s.source.skip bs.length).answer = .silent ∧ readBits size s =
            .hang .source { s.hasRead bs m with source := s.source.skip (bs.length + 1) })))) := by
  obtain ⟨bs, hd, h | ⟨h, hstop⟩⟩ := Source.delivers_or_stops (getCount size s) s.source
  · exact ⟨bs, hd, .inl ⟨h, readBits_ok size s bs h hd⟩⟩
  · obtain ⟨m, hm, hm', hfail, hsil⟩ := readBits_stop size s bs h hd
    refine ⟨bs, hd, .inr ⟨h, m, hm, hm', ?_⟩⟩
    rcases hstop with ⟨info, hi⟩ | hi
    · exact .inl ⟨info, hi, hfail info hi⟩
    · exact .inr ⟨hi, hsil hi⟩

end Sys2Proof.Machine
end

