-- ==== Sys2Proof/Laws/Writing.lean ====
section
/-! SUPPORT. What SinkPut, Write8 and WriteBits can do, outcome by outcome (20_memory.md R42; 41_bit_writer.md R91, R94). -/

namespace Sys2Proof.Machine

/-! ### SinkPut -/

theorem sinkPut_accept (b : Byte) (s : State) (h : s.sink.answer = .accept) :
    sinkPut b s = .ok () { s with snk := s.snk ++ [b], sink := s.sink.advance } := by
  simp [sinkPut, h]

theorem sinkPut_fail (b : Byte) (s : State) (info : Nat) (h : s.sink.answer = .fail info) :
    sinkPut b s = .raise .sinkFail info (failWriter { s with sink := s.sink.advance }) := by
  simp [sinkPut, h]

theorem sinkPut_silent (b : Byte) (s : State) (h : s.sink.answer = .silent) :
    sinkPut b s = .hang .sink { s with sink := s.sink.advance } := by
  simp [sinkPut, h]

/-! ### Write8 -/

theorem pendingWith_byteAt_zero (v size : Nat) (s : State) (h : size ≤ 8) :
    pendingWith (byteAt v 0).toNat size s = pendingWith v size s := by
  have : (byteAt v 0).toNat % 2 ^ size = v % 2 ^ size := by
    rw [byteAt_toNat]
    simp only [pow_zero, Nat.div_one, show (256 : Nat) = 2 ^ 8 by rfl]
    exact Nat.mod_mod_of_dvd v (Nat.pow_dvd_pow 2 h)
  simp only [pendingWith, this]

theorem wrote_byteAt_zero (v size : Nat) (s : State) (h : size ≤ 8) :
    s.wrote (byteAt v 0).toNat size = s.wrote v size := by
  simp only [State.wrote, pendingWith_byteAt_zero v size s h]

theorem wrote_zero (s : State) (v : Nat) : s.wrote v 0 = s := by
  have hp : s.bw.pend.toNat / 8 = 0 := Nat.div_eq_of_lt s.bw.pend.isLt
  have e : pendingWith v 0 s = s.bw.buf.toNat := by simp [pendingWith, Nat.mod_one]
  simp [State.wrote, e, putCount, hp, byteAt, streamBytes, Sink.skip, Nat.mod_eq_of_lt s.bw.pend.isLt]

theorem write8_eq (v : Byte) (size : Nat) (s : State) :
    write8 v size s =
      if 8 ≤ s.bw.pend.toNat + size then
        (sinkPut (byteAt (pendingWith v.toNat size s) 0) s).bind fun _ t =>
          .ok () (setWriter (pendingWith v.toNat size s >>> 8) (s.bw.pend.toNat + size - 8) t)
      else .ok () (setWriter (pendingWith v.toNat size s) (s.bw.pend.toNat + size) s) := by
  simp only [write8, mask_and, pendingWith, byteAt, Nat.shiftRight_zero, ge_iff_le]

theorem write8_ok (v : Byte) (size : Nat) (s : State) (hs : size ≤ 8)
    (h : s.sink.accepts (putCount size s)) : write8 v size s = .ok () (s.wrote v.toNat size) := by
  have hp : s.bw.pend.toNat < 8 := s.bw.pend.isLt
  rw [write8_eq]
  split
  · have hc : putCount size s = 1 := by simp only [putCount]; omega
    rw [hc] at h
    rw [sinkPut_accept _ _ h.1]
    simp only [bind_ok, setWriter, State.wrote, hc, streamBytes, byteAt, Sink.skip,
      show (s.bw.pend.toNat + size) % 8 = s.bw.pend.toNat + size - 8 by omega]
    rfl
  · have hc : putCount size s = 0 := by simp only [putCount]; omega
    simp only [setWriter, State.wrote, hc, streamBytes, byteAt, Sink.skip,
      show (s.bw.pend.toNat + size) % 8 = s.bw.pend.toNat + size by omega]
    simp

theorem write8_fail (v : Byte) (size : Nat) (s : State) (info : Nat) (h8 : 8 ≤ s.bw.pend.toNat + size)
    (h : s.sink.answer = .fail info) :
    write8 v size s = .raise .sinkFail info (failWriter { s with sink := s.sink.advance }) := by
  rw [write8_eq, if_pos h8, sinkPut_fail _ _ info h, bind_raise]

theorem write8_silent (v : Byte) (size : Nat) (s : State) (h8 : 8 ≤ s.bw.pend.toNat + size)
    (h : s.sink.answer = .silent) : write8 v size s = .hang .sink { s with sink := s.sink.advance } := by
  rw [write8_eq, if_pos h8, sinkPut_silent _ _ h, bind_hang]

/-! ### WriteBits -/

theorem writeChunks_shift (cs : List Chunk) (v : Nat) (s : State) :
    writeChunks v (cs.map fun c => { c with offset := c.offset + 8 }) s = writeChunks (v >>> 8) cs s := by
  induction cs generalizing s with
  | nil => rfl
  | cons c cs ih =>
    simp only [List.map_cons, writeChunks, byteAt_shift, Nat.add_comm c.offset 8]
    congr 1
    funext _ t
    exact ih t

/-- A write of 8 bits or more: its lowest byte, then the rest. -/
theorem writeBits_add_eight (v size : Nat) (s : State) :
    writeBits v (size + 8) s = (write8 (byteAt v 0) 8 s).bind fun _ t => writeBits (v >>> 8) size t := by
  simp only [writeBits, chunks_add_eight, writeChunks, writeChunks_shift]

theorem bind_ok_unit (r : Res Unit) : (r.bind fun _ t => .ok () t) = r := by
  cases r <;> rfl

/-- A write of fewer than 8 bits is one Write8. -/
theorem writeBits_small (v size : Nat) (s : State) (h : size < 8) :
    writeBits v size s = write8 (byteAt v 0) size s := by
  rcases Nat.eq_zero_or_pos size with rfl | h0
  · rw [write8_ok _ _ _ (by omega) (by simp [putCount, Nat.div_eq_of_lt s.bw.pend.isLt, Sink.accepts]), wrote_zero]
    rfl
  · simp only [writeBits, chunks_small size h0 h, writeChunks, bind_ok_unit]

theorem putCount_eight (s : State) : putCount 8 s = 1 := by
  have := s.bw.pend.isLt
  simp only [putCount]
  omega

/-- Where the sink accepts every byte of the write, WriteBits is the closed form (41_bit_writer.md R96, R97). -/
theorem writeBits_ok (v size : Nat) (s : State) (h : s.sink.accepts (putCount size s)) :
    writeBits v size s = .ok () (s.wrote v size) := by
  induction size using Nat.strong_induction_on generalizing v s with
  | _ size ih =>
    by_cases hs : size < 8
    · rw [writeBits_small v size s hs, write8_ok _ _ _ (by omega) h, wrote_byteAt_zero v size s (by omega)]
    · obtain ⟨n, rfl⟩ : ∃ n, size = n + 8 := ⟨size - 8, by omega⟩
      have hc : putCount (n + 8) s = 1 + putCount n (s.wrote v 8) := by
        rw [Nat.add_comm n 8, putCount_add s v 8 n, putCount_eight]
      rw [hc, Sink.accepts_add] at h
      rw [writeBits_add_eight, write8_ok _ _ _ (by omega) (by rw [putCount_eight]; exact h.1),
        wrote_byteAt_zero v 8 s (by omega), bind_ok, ih n (by omega), wrote_wrote, Nat.add_comm 8 n]
      simp only [State.wrote, putCount_eight]
      exact h.2

/-- Where the sink does not accept the byte number `j` of the write, the write stops there: `m` bits of `v` have been
written, whose bytes the sink accepted. -/
theorem writeBits_stop (v size j : Nat) (s : State) (hj : j < putCount size s) (ha : s.sink.accepts j) :
    ∃ m, m ≤ size ∧ putCount m s = j ∧
      (∀ info, (s.sink.skip j).answer = .fail info → writeBits v size s =
        .raise .sinkFail info (failWriter { s.wrote v m with sink := s.sink.skip (j + 1) })) ∧
      ((s.sink.skip j).answer = .silent → writeBits v size s =
        .hang .sink { s.wrote v m with sink := s.sink.skip (j + 1) }) := by
  induction size using Nat.strong_induction_on generalizing v s j with
  | _ size ih =>
    by_cases hs : size < 8
    · have hp : s.bw.pend.toNat < 8 := s.bw.pend.isLt
      have h8 : 8 ≤ s.bw.pend.toNat + size := by simp only [putCount] at hj; omega
      obtain rfl : j = 0 := by simp only [putCount] at hj; omega
      refine ⟨0, by omega, by simp only [putCount]; omega, ?_, ?_⟩
      · intro info hf
        rw [writeBits_small v size s hs, write8_fail _ _ _ info h8 hf, wrote_zero]
        rfl
      · intro hf
        rw [writeBits_small v size s hs, write8_silent _ _ _ h8 hf, wrote_zero]
        rfl
    · obtain ⟨n, rfl⟩ : ∃ n, size = n + 8 := ⟨size - 8, by omega⟩
      rw [writeBits_add_eight]
      rcases Nat.eq_zero_or_pos j with rfl | h0
      · refine ⟨0, by omega, by simp only [putCount]; have := s.bw.pend.isLt; omega, ?_, ?_⟩
        · intro info hf
          rw [write8_fail _ _ _ info (by omega) hf, wrote_zero]
          rfl
        · intro hf
          rw [write8_silent _ _ _ (by omega) hf, wrote_zero]
          rfl
      · obtain ⟨i, rfl⟩ : ∃ i, j = 1 + i := ⟨j - 1, by omega⟩
        have hc : putCount (n + 8) s = 1 + putCount n (s.wrote v 8) := by
          rw [Nat.add_comm n 8, putCount_add s v 8 n, putCount_eight]
        rw [Sink.accepts_add] at ha
        have hk : (s.wrote v 8).sink = s.sink.skip 1 := by simp only [State.wrote, putCount_eight]
        obtain ⟨m, hm, hm', hfail, hsil⟩ := ih n (by omega) (v >>> 8) i (s.wrote v 8) (by omega) (by rw [hk]; exact ha.2)
        rw [write8_ok _ _ _ (by omega) (by rw [putCount_eight]; exact ha.1), wrote_byteAt_zero v 8 s (by omega), bind_ok]
        rw [hk, ← Sink.skip_add, ← Sink.skip_add, wrote_wrote] at hfail hsil
        refine ⟨8 + m, by omega, by rw [putCount_add s v 8 m, putCount_eight, hm'], hfail, hsil⟩

/-- The coming answers either accept the whole of a write or stop it at some byte. -/
theorem Sink.accepts_or_stops (n : Nat) (k : Sink) :
    k.accepts n ∨ ∃ j, j < n ∧ k.accepts j ∧
      ((∃ info, (k.skip j).answer = .fail info) ∨ (k.skip j).answer = .silent) := by
  induction n generalizing k with
  | zero => exact .inl trivial
  | succ n ih =>
    cases ha : k.answer with
    | accept =>
      rcases ih k.advance with h | ⟨j, hj, hacc, hstop⟩
      · exact .inl ⟨ha, h⟩
      · exact .inr ⟨j + 1, by omega, ⟨ha, hacc⟩, hstop⟩
    | fail info => exact .inr ⟨0, by omega, trivial, .inl ⟨info, ha⟩⟩
    | silent => exact .inr ⟨0, by omega, trivial, .inr ha⟩

/-- Everything a whole write can do: it completes, or it stops at a byte the sink does not accept. -/
theorem writeBits_cases (v size : Nat) (s : State) :
    (s.sink.accepts (putCount size s) ∧ writeBits v size s = .ok () (s.wrote v size)) ∨
    ∃ m j, m ≤ size ∧ putCount m s = j ∧ j < putCount size s ∧ s.sink.accepts j ∧
      ((∃ info, (s.sink.skip j).answer = .fail info ∧ writeBits v size s =
          .raise .sinkFail info (failWriter { s.wrote v m with sink := s.sink.skip (j + 1) })) ∨
       ((s.sink.skip j).answer = .silent ∧ writeBits v size s =
          .hang .sink { s.wrote v m with sink := s.sink.skip (j + 1) })) := by
  rcases Sink.accepts_or_stops (putCount size s) s.sink with h | ⟨j, hj, ha, hstop⟩
  · exact .inl ⟨h, writeBits_ok v size s h⟩
  · obtain ⟨m, hm, hm', hfail, hsil⟩ := writeBits_stop v size j s hj ha
    refine .inr ⟨m, j, hm, hm', hj, ha, ?_⟩
    rcases hstop with ⟨info, hi⟩ | hi
    · exact .inl ⟨info, hi, hfail info hi⟩
    · exact .inr ⟨hi, hsil hi⟩

end Sys2Proof.Machine
end

