-- ==== Sys2Proof/Laws/Codewords.lean ====
section
/-! SUPPORT. What writing and reading one codeword can do, in closed form (43_tbe.md R142 to R144, R146). -/

namespace Sys2Proof.Machine

/-- Only the low `size` bits of the value are written (41_bit_writer.md R92). -/
theorem wrote_congr (s : State) (v v' size : Nat) (h : v % 2 ^ size = v' % 2 ^ size) :
    s.wrote v size = s.wrote v' size := by
  simp only [State.wrote, pendingWith, h]

theorem writeBits_congr (s : State) (v v' size : Nat) (h : v % 2 ^ size = v' % 2 ^ size) :
    writeBits v size s = writeBits v' size s := by
  induction size using Nat.strong_induction_on generalizing v v' s with
  | _ size ih =>
    by_cases hs : size < 8
    · have e : pendingWith v size = pendingWith v' size := by funext t; simp only [pendingWith, h]
      simp only [writeBits_small _ size s hs, write8_eq, pendingWith_byteAt_zero _ size _ (by omega : size ≤ 8), e]
    · obtain ⟨n, rfl⟩ : ∃ n, size = n + 8 := ⟨size - 8, by omega⟩
      have h8 : v % 256 = v' % 256 := by
        have := congrArg (· % 2 ^ 8) h
        simpa [Nat.mod_mod_of_dvd _ (Nat.pow_dvd_pow 2 (by omega : 8 ≤ n + 8))] using this
      have hb : byteAt v 0 = byteAt v' 0 := by
        apply BitVec.eq_of_toNat_eq
        simp [byteAt_toNat, h8]
      have hn : (v >>> 8) % 2 ^ n = (v' >>> 8) % 2 ^ n := by
        apply Nat.eq_of_testBit_eq
        intro j
        have := congrArg (fun x => x.testBit (8 + j)) h
        simp only [Nat.testBit_mod_two_pow] at this
        simp only [Nat.testBit_mod_two_pow, Nat.testBit_shiftRight]
        by_cases hj : j < n
        · simpa [hj, show 8 + j < n + 8 by omega] using this
        · simp [hj]
      rw [writeBits_add_eight, writeBits_add_eight, hb]
      congr 1
      funext _ t
      exact ih n (by omega) t _ _ hn

/-- The low `k` bits of a long codeword are the upper bits of `x` (43_tbe.md R143). -/
theorem codeword_low (k u value : Nat) (hv : ¬ value < u) (hr : value + u < 2 ^ (k + 1)) :
    codeword k u value % 2 ^ k = ((value + u) >>> 1) % 2 ^ k := by
  have hx : (value + u) / 2 < 2 ^ k := by rw [Nat.pow_succ] at hr; omega
  simp [codeword, if_neg hv, Nat.shiftRight_eq_div_pow]

/-- The last bit of a long codeword is bit 0 of `x` (43_tbe.md R143). -/
theorem codeword_high (k u value : Nat) (hv : ¬ value < u) (hr : value + u < 2 ^ (k + 1)) :
    codeword k u value >>> k = (value + u) % 2 := by
  have hx : (value + u) / 2 < 2 ^ k := by rw [Nat.pow_succ] at hr; omega
  rw [codeword, if_neg hv, Nat.shiftRight_eq_div_pow, Nat.add_mul_div_right _ _ (Nat.two_pow_pos k),
    Nat.div_eq_of_lt hx, Nat.zero_add]

theorem bit_toNat (x : Nat) : (BitVec.ofNat 8 (x &&& 1)).toNat = x % 2 := by
  rw [Nat.and_one_is_mod, BitVec.toNat_ofNat]
  omega

/-- Where the sink accepts every byte, the codeword of an in-range value is written whole. -/
theorem writeCodeword_ok (k u value : Nat) (s : State) (hr : value + u < 2 ^ (k + 1))
    (h : s.sink.accepts (putCount (codewordLen k u value) s)) :
    writeCodeword k u value s = .ok () (s.wrote (codeword k u value) (codewordLen k u value)) := by
  by_cases hv : value < u
  · simp only [codewordLen, if_pos hv] at h
    simp only [writeCodeword, codewordLen, codeword, if_pos hv]
    exact writeBits_ok value k s h
  · simp only [codewordLen, if_neg hv] at h
    have hlow := codeword_low k u value hv hr
    rw [putCount_add s (codeword k u value) k 1, Sink.accepts_add] at h
    simp only [writeCodeword, if_neg hv, codewordLen]
    rw [writeBits_ok _ _ _ h.1, bind_ok, wrote_congr s _ _ k hlow.symm]
    rw [write8_ok _ 1 _ (by omega) (by simp only [State.wrote] at h ⊢; exact h.2), bit_toNat,
      ← codeword_high k u value hv hr, wrote_wrote]

/-- Where the sink does not accept the byte number `j` of a codeword, the command stops there. -/
theorem writeCodeword_stop (k u value j : Nat) (s : State) (hr : value + u < 2 ^ (k + 1))
    (hj : j < putCount (codewordLen k u value) s) (ha : s.sink.accepts j) :
    ∃ m, m ≤ codewordLen k u value ∧ putCount m s = j ∧
      (∀ info, (s.sink.skip j).answer = .fail info → writeCodeword k u value s =
        .raise .sinkFail info
          (failWriter { s.wrote (codeword k u value) m with sink := s.sink.skip (j + 1) })) ∧
      ((s.sink.skip j).answer = .silent → writeCodeword k u value s =
        .hang .sink { s.wrote (codeword k u value) m with sink := s.sink.skip (j + 1) }) := by
  by_cases hv : value < u
  · simp only [codewordLen, if_pos hv] at hj ⊢
    simp only [writeCodeword, codeword, if_pos hv]
    exact writeBits_stop value k j s hj ha
  · simp only [codewordLen, if_neg hv] at hj ⊢
    have hlow := codeword_low k u value hv hr
    simp only [writeCodeword, if_neg hv]
    rw [writeBits_congr s _ _ k hlow.symm]
    by_cases hjk : j < putCount k s
    · obtain ⟨m, hm, hm', hfail, hsil⟩ := writeBits_stop (codeword k u value) k j s hjk ha
      refine ⟨m, by omega, hm', ?_, ?_⟩
      · intro info hf; rw [hfail info hf, bind_raise]
      · intro hf; rw [hsil hf, bind_hang]
    · have hadd := putCount_add s (codeword k u value) k 1
      have h1 : putCount 1 (s.wrote (codeword k u value) k) ≤ 1 := by
        simp only [putCount]; have := (s.wrote (codeword k u value) k).bw.pend.isLt; omega
      obtain rfl : j = putCount k s := by omega
      have h8 : 8 ≤ (s.wrote (codeword k u value) k).bw.pend.toNat + 1 := by
        have : 0 < putCount 1 (s.wrote (codeword k u value) k) := by omega
        simp only [putCount] at this
        omega
      have hk : (s.wrote (codeword k u value) k).sink = s.sink.skip (putCount k s) := rfl
      have hk' : (s.wrote (codeword k u value) k).sink.advance = s.sink.skip (putCount k s + 1) := by
        rw [hk, Sink.skip_add]; rfl
      refine ⟨k, by omega, rfl, ?_, ?_⟩
      · intro info hf
        rw [writeBits_ok _ _ _ ha, bind_ok, write8_fail _ _ _ info h8 (by rw [hk]; exact hf), hk']
      · intro hf
        rw [writeBits_ok _ _ _ ha, bind_ok, write8_silent _ _ _ h8 (by rw [hk]; exact hf), hk']

/-- Everything writing an in-range value can do. -/
theorem writeCodeword_cases (k u value : Nat) (s : State) (hr : value + u < 2 ^ (k + 1)) :
    (s.sink.accepts (putCount (codewordLen k u value) s) ∧
      writeCodeword k u value s = .ok () (s.wrote (codeword k u value) (codewordLen k u value))) ∨
    ∃ m j, m ≤ codewordLen k u value ∧ putCount m s = j ∧ j < putCount (codewordLen k u value) s ∧
      s.sink.accepts j ∧
      ((∃ info, (s.sink.skip j).answer = .fail info ∧ writeCodeword k u value s =
          .raise .sinkFail info
            (failWriter { s.wrote (codeword k u value) m with sink := s.sink.skip (j + 1) })) ∨
       ((s.sink.skip j).answer = .silent ∧ writeCodeword k u value s =
          .hang .sink { s.wrote (codeword k u value) m with sink := s.sink.skip (j + 1) })) := by
  rcases Sink.accepts_or_stops (putCount (codewordLen k u value) s) s.sink with h | ⟨j, hj, ha, hstop⟩
  · exact .inl ⟨h, writeCodeword_ok k u value s hr h⟩
  · obtain ⟨m, hm, hm', hfail, hsil⟩ := writeCodeword_stop k u value j s hr hj ha
    refine .inr ⟨m, j, hm, hm', hj, ha, ?_⟩
    rcases hstop with ⟨info, hi⟩ | hi
    · exact .inl ⟨info, hi, hfail info hi⟩
    · exact .inr ⟨hi, hsil hi⟩

/-! ### reading a codeword -/

/-- The low bits of the coming stream do not depend on bytes that a read of them does not fetch. -/
theorem comingBits_append_mod (xs ys : List Byte) (s : State) (size : Nat)
    (h : size ≤ s.br.pend.toNat + 8 * xs.length) :
    comingBits (xs ++ ys) s % 2 ^ size = comingBits xs s % 2 ^ size := by
  rw [comingBits_append]
  apply Nat.eq_of_testBit_eq
  intro j
  simp only [Nat.testBit_mod_two_pow, Nat.testBit_or, Nat.testBit_shiftLeft]
  by_cases hj : j < size
  · simp [show ¬ s.br.pend.toNat + 8 * xs.length ≤ j by omega]
  · simp [hj]

/-- A codeword whose first `k` bits are below `u` is short: its value is those bits. -/
theorem readCodeword_short (k u : Nat) (s : State) (bs : List Byte) (hl : bs.length = getCount k s)
    (h : s.source.delivers bs) (hv : comingBits bs s % 2 ^ k < u) :
    readCodeword k u s = .ok (comingBits bs s % 2 ^ k) (s.hasRead bs k) := by
  simp only [readCodeword, readBits_ok k s bs hl h, bind_ok, if_pos hv]

/-- A codeword whose first `k` bits are `u` or above is long: one more bit is read. -/
theorem readCodeword_long (k u : Nat) (s : State) (bs : List Byte) (hl : bs.length = getCount (k + 1) s)
    (h : s.source.delivers bs) (hv : ¬ comingBits bs s % 2 ^ k < u) :
    readCodeword k u s =
      .ok (2 * (comingBits bs s % 2 ^ k) + (comingBits bs s >>> k) % 2 - u) (s.hasRead bs (k + 1)) := by
  have hle : getCount k s ≤ bs.length := by rw [hl]; simp only [getCount]; omega
  obtain ⟨xs, ys, rfl, hx⟩ : ∃ xs ys, bs = xs ++ ys ∧ xs.length = getCount k s :=
    ⟨bs.take (getCount k s), bs.drop (getCount k s), (List.take_append_drop _ _).symm, by simp [hle]⟩
  rw [Source.delivers_append] at h
  have hc := getCount_le s k
  rw [← hx] at hc
  have hmod := comingBits_append_mod xs ys s k hc
  have hadd := getCount_add s xs k 1 hx
  have hy : ys.length = getCount 1 (s.hasRead xs k) := by
    rw [List.length_append] at hl; omega
  rw [hmod] at hv ⊢
  simp only [readCodeword, readBits_ok k s xs hx h.1, bind_ok, if_neg hv]
  rw [read8_ok 1 _ ys (by omega) hy h.2, bind_ok, hasRead_hasRead s xs ys k 1 hx,
    comingBits_hasRead s xs ys k hx, toNat_ofNat_mod _ _ (by omega)]
  congr 2
  have h2 : ∀ v b : Nat, b < 2 → (v <<< 1) ||| b = 2 * v + b := by
    intro v b hb
    rw [← Nat.shiftLeft_add_eq_or_of_lt (by simpa using hb), Nat.shiftLeft_eq]
    omega
  rw [pow_one, h2 _ _ (Nat.mod_lt _ (by omega))]

end Sys2Proof.Machine
end

