-- ==== Sys2Proof/Laws/Commands.lean ====
section
/-! SUPPORT. What each command can do, once: first which shared operation it is where no clean fault applies, then every
outcome of every command (60_exceptions.md R170, R179). -/

namespace Sys2Proof.Machine

/-! ### the end of a command -/

theorem respond_eq (r : Result) (s : State) : respond r s = s.responded (okResponse r.rk r.data) := rfl

theorem raiseFault_eq (st : Status) (info : Nat) (s : State) : raiseFault st info s = s.responded (faultResponse st info) := rfl

/-! ### partial writes and reads -/

/-- The bytes a write hands over first do not depend on its later bits. -/
theorem streamBytes_prefix (s : State) (v m size : Nat) (hm : m ≤ size) :
    streamBytes (pendingWith v m s) (putCount m s) = streamBytes (pendingWith v size s) (putCount m s) := by
  obtain ⟨b, rfl⟩ : ∃ b, size = m + b := ⟨size - m, by omega⟩
  rw [pendingWith_add, streamBytes_or_shift_above]
  simp only [putCount]; omega

/-- A write stopped by a failing sink, in closed form (20_memory.md R51; 60_exceptions.md R176). -/
theorem failWriter_wrote (s : State) (v m size j : Nat) (hm : m ≤ size) (hj : putCount m s = j) :
    failWriter { s.wrote v m with sink := s.sink.skip (j + 1) } = s.wroteInPart v size j := by
  subst hj
  simp only [failWriter, State.wrote, State.wroteInPart, streamBytes_prefix s v m size hm]

/-- A read stopped by a failing source, in closed form (20_memory.md R51; 60_exceptions.md R176). -/
theorem failReader_hasRead (s : State) (bs : List Byte) (m : Nat) :
    failReader { s.hasRead bs m with source := s.source.skip (bs.length + 1) } = s.readInPart bs.length := rfl

/-- A write after a write stops where the joint write stops. -/
theorem wrote_wroteInPart (s : State) (v a b j : Nat) :
    (s.wrote v a).wroteInPart (v >>> a) b j = s.wroteInPart v (a + b) (putCount a s + j) := by
  have e3 : streamBytes (pendingWith v a s) (putCount a s) ++ streamBytes (pendingWith (v >>> a) b (s.wrote v a)) j =
      streamBytes (pendingWith v (a + b) s) (putCount a s + j) := by
    rw [streamBytes_add, pendingWith_wrote, ← streamBytes_prefix s v a (a+b) (by omega)]
  simp only [State.wroteInPart, e3.symm]
  simp only [State.wrote, List.append_assoc, ← Sink.skip_add, Nat.add_assoc]

theorem hasRead_readInPart (s : State) (xs : List Byte) (a j : Nat) :
    (s.hasRead xs a).readInPart j = s.readInPart (xs.length + j) := by
  simp only [State.hasRead, State.readInPart, ← Source.skip_add, Nat.add_assoc]

/-! ### when a procedure ends how -/

theorem bind_ok_iff {α β : Type} (r : Res α) (f : α → State → Res β) (b : β) (t : State) :
    r.bind f = .ok b t ↔ ∃ a u, r = .ok a u ∧ f a u = .ok b t := by
  cases r <;> simp [Res.bind]

theorem bind_raise_iff {α β : Type} (r : Res α) (f : α → State → Res β) (st info t) :
    r.bind f = .raise st info t ↔ r = .raise st info t ∨ ∃ a u, r = .ok a u ∧ f a u = .raise st info t := by
  cases r <;> simp [Res.bind]

theorem writeBits_ok_iff (v n : Nat) (s t : State) :
    writeBits v n s = .ok () t ↔ s.sink.accepts (putCount n s) ∧ t = s.wrote v n := by
  constructor
  · intro h
    rcases writeBits_cases v n s with ⟨ha, e⟩ | ⟨m, j, hm, hm', hj, ha, ⟨info, hf, e⟩ | ⟨hf, e⟩⟩ <;> rw [e] at h <;> cases h
    exact ⟨ha, rfl⟩
  · rintro ⟨h, rfl⟩; exact writeBits_ok v n s h

theorem writeBits_raise_iff (v n : Nat) (s t : State) (st : Status) (info : Nat) :
    writeBits v n s = .raise st info t ↔ st = .sinkFail ∧ ∃ j, j < putCount n s ∧ s.sink.accepts j ∧
      (s.sink.skip j).answer = .fail info ∧ t = s.wroteInPart v n j := by
  constructor
  · intro h
    rcases writeBits_cases v n s with ⟨ha, e⟩ | ⟨m, j, hm, hm', hj, ha, ⟨info', hf, e⟩ | ⟨hf, e⟩⟩ <;> rw [e] at h <;> cases h
    exact ⟨rfl, j, hj, ha, hf, failWriter_wrote s v m n j hm hm'⟩
  · rintro ⟨rfl, j, hj, ha, hf, rfl⟩
    obtain ⟨m, hm, hm', hfail, -⟩ := writeBits_stop v n j s hj ha
    rw [hfail info hf, failWriter_wrote s v m n j hm hm']

theorem readBits_ok_iff (n r : Nat) (s t : State) : readBits n s = .ok r t ↔
    ∃ bs, s.source.delivers bs ∧ bs.length = getCount n s ∧ r = comingBits bs s % 2 ^ n ∧ t = s.hasRead bs n := by
  constructor
  · intro h
    obtain ⟨bs, hd, ⟨hb, e⟩ | ⟨hb, m, hm, hm', ⟨info, hf, e⟩ | ⟨hf, e⟩⟩⟩ := readBits_cases n s <;> rw [e] at h <;> cases h
    exact ⟨bs, hd, hb, rfl, rfl⟩
  · rintro ⟨bs, hd, hb, rfl, rfl⟩; exact readBits_ok n s bs hb hd

theorem readBits_raise_iff (n : Nat) (s t : State) (st info) : readBits n s = .raise st info t ↔ st = .sourceFail ∧
    ∃ bs, s.source.delivers bs ∧ bs.length < getCount n s ∧ (s.source.skip bs.length).answer = .fail info ∧ t = s.readInPart bs.length := by
  constructor
  · intro h
    obtain ⟨bs, hd, ⟨hb, e⟩ | ⟨hb, m, hm, hm', ⟨info, hf, e⟩ | ⟨hf, e⟩⟩⟩ := readBits_cases n s <;> rw [e] at h <;> cases h
    exact ⟨rfl, bs, hd, hb, hf, rfl⟩
  · rintro ⟨rfl, bs, hd, hb, hf, rfl⟩
    obtain ⟨m, hm, hm', hfail, -⟩ := readBits_stop n s bs hb hd
    rw [hfail info hf]; rfl

/-- Everything reading one codeword can do (43_tbe.md R146). -/
theorem readCodeword_cases (k u : Nat) (s : State) :
    ∃ bs, s.source.delivers bs ∧
     ((bs.length = getCount k s ∧ comingBits bs s % 2 ^ k < u ∧
        readCodeword k u s = .ok (comingBits bs s % 2 ^ k) (s.hasRead bs k)) ∨
      (bs.length = getCount (k + 1) s ∧ u ≤ comingBits bs s % 2 ^ k ∧ readCodeword k u s =
        .ok (2 * (comingBits bs s % 2 ^ k) + (comingBits bs s >>> k) % 2 - u) (s.hasRead bs (k + 1))) ∨
      (bs.length < getCount (k + 1) s ∧
        ((∃ info, (s.source.skip bs.length).answer = .fail info ∧
            readCodeword k u s = .raise .sourceFail info (s.readInPart bs.length)) ∨
         ((s.source.skip bs.length).answer = .silent ∧ ∃ m, getCount m s = bs.length ∧ readCodeword k u s =
            .hang .source { s.hasRead bs m with source := s.source.skip (bs.length + 1) })))) := by
  obtain ⟨bs, hd, ⟨hb, e⟩ | ⟨hb, m, hm, hm', hs⟩⟩ := readBits_cases k s
  · by_cases hv : comingBits bs s % 2 ^ k < u
    · exact ⟨bs, hd, .inl ⟨hb, hv, readCodeword_short k u s bs hb hd hv⟩⟩
    · have hadd := getCount_add s bs k 1 hb
      have hg := getCount_le_eight (s.hasRead bs k) 1 (by omega)
      have hg1 : getCount 1 (s.hasRead bs k) ≤ 1 := by rw [hg]; split <;> omega
      obtain ⟨cs, hd', hc⟩ := Source.delivers_or_stops (getCount (k+1) s - bs.length) (s.source.skip bs.length)
      rcases hc with hc | ⟨hc, hstop⟩
      · have hd2 : s.source.delivers (bs ++ cs) := by rw [Source.delivers_append]; exact ⟨hd, hd'⟩
        have hlen : (bs ++ cs).length = getCount (k + 1) s := by rw [List.length_append, hc]; omega
        have hmod := comingBits_append_mod bs cs s k (hb ▸ getCount_le s k)
        exact ⟨bs ++ cs, hd2, .inr (.inl ⟨hlen, by rw [hmod]; exact Nat.le_of_not_lt hv, readCodeword_long k u s _ hlen hd2 (by rw [hmod]; exact hv)⟩)⟩
      · obtain rfl : cs = [] := List.length_eq_zero_iff.1 (by omega)
        refine ⟨bs, hd, .inr (.inr ⟨by omega, ?_⟩)⟩
        have hp : (s.hasRead bs k).br.pend.toNat < 1 := by
          by_contra h; rw [if_neg h] at hg; simp only [List.length_nil] at hc; omega
        have hk : (s.hasRead bs k).source = s.source.skip bs.length := rfl
        have hk' : (s.hasRead bs k).source.advance = s.source.skip (bs.length + 1) := by rw [hk, Source.skip_add]; rfl
        rcases hstop with ⟨info, hf⟩ | hf
        · refine .inl ⟨info, hf, ?_⟩
          rw [readCodeword, e, bind_ok, if_neg hv, read8_fail 1 _ info hp hf, bind_raise, hk']; rfl
        · refine .inr ⟨hf, k, hb.symm, ?_⟩
          rw [readCodeword, e, bind_ok, if_neg hv, read8_silent 1 _ hp hf, bind_hang, hk']
  · have hle : getCount k s ≤ getCount (k + 1) s := by simp only [getCount]; omega
    refine ⟨bs, hd, .inr (.inr ⟨by omega, ?_⟩)⟩
    rcases hs with ⟨info, hf, e⟩ | ⟨hf, e⟩
    · exact .inl ⟨info, hf, by rw [readCodeword, e, bind_raise, failReader_hasRead]⟩
    · exact .inr ⟨hf, m, hm', by rw [readCodeword, e, bind_hang]⟩

/-! ### descriptors -/

theorem validDescriptor_iff (W : Width) (k u : Nat) :
    validDescriptor W k u = true ↔ k ≤ W.bits - 1 ∧ 1 ≤ u ∧ u ≤ 2 ^ k := by
  rw [validDescriptor, exp2, decide_eq_true_iff]
  exact and_congr_right fun _ => and_congr_left fun _ => Nat.one_le_iff_ne_zero.symm

theorem width_le (W : Width) : 8 ≤ W.bits ∧ W.bits ≤ 64 := by cases W <;> decide

/-- A valid descriptor and a value below its bound fit the width (43_tbe.md R138, R142). -/
theorem desc_fits (W : Width) (k u value : Nat) (h : validDescriptor W k u = true) (hv : value < boundOf k u) :
    u < 2 ^ W.bits ∧ value < 2 ^ W.bits ∧ value + u < 2 ^ (k + 1) := by
  rw [validDescriptor_iff] at h
  have := width_le W
  have h1 : 2 ^ (k + 1) ≤ 2 ^ W.bits := Nat.pow_le_pow_right (by omega) (by omega)
  simp only [boundOf, exp2] at hv
  have : 2 ^ (k + 1) = 2 * 2 ^ k := by rw [Nat.pow_succ]; omega
  omega

/-! ### the commands where no clean fault applies -/

theorem exec_bwWrite (value : Byte) (size : Size) (s : State) (he : s.bw.err = false) (hs : size.toNat ≤ 8) :
    exec (.bwWrite value size) s = finish (writeBits value.toNat size.toNat s) fun _ => noResult := by
  have hw : writeBits value.toNat size.toNat s = write8 value size.toNat s := by
    have hb : byteAt value.toNat 0 = value := by simp [byteAt]
    rcases Nat.lt_or_eq_of_le hs with h | h
    · rw [writeBits_small _ _ _ h, hb]
    · have e : writeBits value.toNat 8 s = _ := writeBits_add_eight value.toNat 0 s
      rw [h, e, hb]
      cases write8 value 8 s <;> rfl
  simp only [exec, execBwWrite, writerFaulted, he, sizeFits8, decide_eq_true hs, hw]
  rfl

theorem exec_bwWrite32 (value : BitVec 32) (size : Size) (s : State) (he : s.bw.err = false) (hs : size.toNat ≤ 32) :
    exec (.bwWrite32 value size) s = finish (writeBits value.toNat size.toNat s) fun _ => noResult := by
  simp only [exec, execBwWrite32, writerFaulted, he, sizeFits32, decide_eq_true hs]
  rfl

theorem exec_tbeWrite (k : Size) (u value : Data) (s : State) (he : s.bw.err = false)
    (hd : validDescriptor s.params.width k.toNat u.toNat = true) (hv : value.toNat < boundOf k.toNat u.toNat) :
    exec (.tbeWrite k u value) s = finish (writeCodeword k.toNat u.toNat value.toNat s) fun _ => noResult := by
  obtain ⟨h1, h2, h3⟩ := desc_fits _ _ _ _ hd hv
  have h4 : valueTooLarge k.toNat u.toNat value.toNat = false := by
    simp only [valueTooLarge, exp2]; exact decide_eq_false (by omega)
  simp only [exec, execTbeWrite, fitsWidth, decide_eq_true h1, decide_eq_true h2, writerFaulted, he, hd, h4]
  rfl

theorem exec_brRead (size : Size) (s : State) (he : s.br.err = false) (hs : size.toNat ≤ 8) :
    exec (.brRead size) s = finish (readBits size.toNat s) dataResult := by
  have hw : readBits size.toNat s = (read8 size.toNat s).bind fun b t => .ok b.toNat t := by
    rcases Nat.lt_or_eq_of_le hs with h | h
    · exact readBits_small _ _ h
    · have e : readBits 8 s = _ := readBits_add_eight 0 s
      rw [h, e]
      cases read8 8 s with
      | ok b t => simp [readBits, chunks_zero, readChunks]
      | raise => rfl
      | hang => rfl
  simp only [exec, execBrRead, readerFaulted, he, sizeFits8, decide_eq_true hs, hw]
  cases read8 size.toNat s <;> rfl

theorem exec_brRead32 (size : Size) (s : State) (he : s.br.err = false) (hs : size.toNat ≤ 32) :
    exec (.brRead32 size) s = finish (readBits size.toNat s) dataResult := by
  simp only [exec, execBrRead32, readerFaulted, he, sizeFits32, decide_eq_true hs]
  rfl

theorem exec_tbeRead (k : Size) (u : Data) (s : State) (he : s.br.err = false)
    (hd : validDescriptor s.params.width k.toNat u.toNat = true) :
    exec (.tbeRead k u) s = finish (readCodeword k.toNat u.toNat s) dataResult := by
  have hb : 0 < boundOf k.toNat u.toNat := by
    rw [validDescriptor_iff] at hd; simp only [boundOf, exp2, Nat.pow_succ]; have := Nat.two_pow_pos k.toNat; omega
  obtain ⟨h1, _⟩ := desc_fits _ _ _ 0 hd hb
  simp only [exec, execTbeRead, fitsWidth, decide_eq_true h1, readerFaulted, he, hd]
  rfl

/-! ### everything a command can do -/

/-- What the command `i` can make of the state `s`: a clean fault, an answer, a whole or stopped write, a close, a whole or
stopped read, a new unit. Which clean fault, and with which operands which write or read, the equations above say. -/
inductive Effect (i : Instr) (s : State) : State → Prop
  | refused (st : Status) (h : st ≠ .ok ∧ st ≠ .sinkFail ∧ st ≠ .sourceFail) : Effect i s (s.responded (faultResponse st 0))
  | answered (rk : BitVec 8) (data : Data) :
      Effect i s (s.responded (okResponse rk data))
  | wrote (v size : Nat) (hi : runsOnWriter i = true) (he : s.bw.err = false)
      (hl : putCount size s ≤ sinkLimit s.params.width i) (ha : s.sink.accepts (putCount size s)) :
      Effect i s ((s.wrote v size).responded (okResponse 0 0))
  | writeFailed (v size j info : Nat) (hi : runsOnWriter i = true) (he : s.bw.err = false)
      (hl : putCount size s ≤ sinkLimit s.params.width i) (hj : j < putCount size s) (ha : s.sink.accepts j)
      (hf : (s.sink.skip j).answer = .fail info) :
      Effect i s ((s.wroteInPart v size j).responded (faultResponse .sinkFail info))
  | writeHangs (v m : Nat) (hi : runsOnWriter i = true) (he : s.bw.err = false)
      (hl : putCount m s < sinkLimit s.params.width i) (ha : s.sink.accepts (putCount m s))
      (hf : (s.sink.skip (putCount m s)).answer = .silent) :
      Effect i s { s.wrote v m with sink := s.sink.skip (putCount m s + 1), waiting := some .sink }
  | closed (hi : i = .bwClose) (he : s.bw.err = false) (ha : s.sink.answer = .accept) :
      Effect i s (State.responded { s with bw := UnitRegs.fresh, snk := s.snk ++ [s.bw.buf], sink := s.sink.advance }
        (okResponse 0 0))
  | closeFailed (info : Nat) (hi : i = .bwClose) (he : s.bw.err = false)
      (ha : s.sink.answer = .fail info) :
      Effect i s (State.responded
        { s with bw := UnitRegs.failed s.freeCount, freeCount := s.freeCount + 1, sink := s.sink.advance }
        (faultResponse .sinkFail info))
  | closeHangs (hi : i = .bwClose) (he : s.bw.err = false)
      (ha : s.sink.answer = .silent) :
      Effect i s { s with sink := s.sink.advance, waiting := some .sink }
  | writerNew (hi : runsOnWriter i = true) (he : s.bw.err = false ∨ i = .bwInit) :
      Effect i s (State.responded { s with bw := UnitRegs.fresh } (okResponse 0 0))
  | read (bs : List Byte) (size : Nat) (data : Data) (hi : runsOnReader i = true)
      (he : s.br.err = false)
      (hl : bs.length ≤ sourceLimit s.params.width i) (hb : bs.length = getCount size s) (ha : s.source.delivers bs) :
      Effect i s ((s.hasRead bs size).responded (okResponse 0 data))
  | readFailed (bs : List Byte) (info : Nat) (hi : runsOnReader i = true)
      (he : s.br.err = false)
      (hl : bs.length < sourceLimit s.params.width i) (ha : s.source.delivers bs)
      (hf : (s.source.skip bs.length).answer = .fail info) :
      Effect i s ((s.readInPart bs.length).responded (faultResponse .sourceFail info))
  | readHangs (bs : List Byte) (m : Nat) (hi : runsOnReader i = true)
      (he : s.br.err = false) (hb : bs.length = getCount m s)
      (hl : bs.length < sourceLimit s.params.width i) (ha : s.source.delivers bs)
      (hf : (s.source.skip bs.length).answer = .silent) :
      Effect i s { s.hasRead bs m with source := s.source.skip (bs.length + 1), waiting := some .source }
  | readerNew (hi : runsOnReader i = true) (he : s.br.err = false ∨ i = .brInit) :
      Effect i s (State.responded { s with br := UnitRegs.fresh } (okResponse 0 0))

theorem effect_write (i : Instr) (s : State) (v size : Nat) (hi : runsOnWriter i = true)
    (he : s.bw.err = false) (hl : putCount size s ≤ sinkLimit s.params.width i) :
    ∃ t, finish (writeBits v size s) (fun _ => noResult) = .next t ∧ Effect i s t := by
  rcases writeBits_cases v size s with ⟨ha, e⟩ | ⟨m, j, hm, hm', hj, ha, ⟨info, hf, e⟩ | ⟨hf, e⟩⟩
  · rw [e]; exact ⟨_, rfl, .wrote v size hi he hl ha⟩
  · rw [e, finish_raise, failWriter_wrote s v m size j hm hm']; exact ⟨_, rfl, .writeFailed v size j info hi he hl hj ha hf⟩
  · rw [e, finish_hang]; subst hm'; exact ⟨_, rfl, .writeHangs v m hi he (by omega) ha hf⟩

theorem effect_codeword (i : Instr) (s : State) (k u value : Nat) (hi : runsOnWriter i = true)
    (hr : value + u < 2 ^ (k + 1))
    (he : s.bw.err = false) (hl : putCount (codewordLen k u value) s ≤ sinkLimit s.params.width i) :
    ∃ t, finish (writeCodeword k u value s) (fun _ => noResult) = .next t ∧ Effect i s t := by
  rcases writeCodeword_cases k u value s hr with ⟨ha, e⟩ | ⟨m, j, hm, hm', hj, ha, ⟨info, hf, e⟩ | ⟨hf, e⟩⟩
  · rw [e]; exact ⟨_, rfl, .wrote _ _ hi he hl ha⟩
  · rw [e, finish_raise, failWriter_wrote s _ m _ j hm hm']; exact ⟨_, rfl, .writeFailed _ _ j info hi he hl hj ha hf⟩
  · rw [e, finish_hang]; subst hm'; exact ⟨_, rfl, .writeHangs _ m hi he (by omega) ha hf⟩

theorem effect_read (i : Instr) (s : State) (size : Nat) (hi : runsOnReader i = true)
    (he : s.br.err = false) (hl : getCount size s ≤ sourceLimit s.params.width i) :
    ∃ t, finish (readBits size s) dataResult = .next t ∧ Effect i s t := by
  obtain ⟨bs, hd, ⟨hb, e⟩ | ⟨hb, m, hm, hm', ⟨info, hf, e⟩ | ⟨hf, e⟩⟩⟩ := readBits_cases size s
  · rw [e]; exact ⟨_, rfl, .read bs size _ hi he (by omega) hb hd⟩
  · rw [e, finish_raise, failReader_hasRead]; exact ⟨_, rfl, .readFailed bs info hi he (by omega) hd hf⟩
  · rw [e, finish_hang]; exact ⟨_, rfl, .readHangs bs m hi he hm'.symm (by omega) hd hf⟩

theorem effect_readCodeword (i : Instr) (s : State) (k u : Nat) (hi : runsOnReader i = true)
    (he : s.br.err = false) (hl : getCount (k + 1) s ≤ sourceLimit s.params.width i) :
    ∃ t, finish (readCodeword k u s) dataResult = .next t ∧ Effect i s t := by
  have hle : getCount k s ≤ getCount (k + 1) s := by simp only [getCount]; omega
  obtain ⟨bs, hd, ⟨hb, _, e⟩ | ⟨hb, _, e⟩ | ⟨hb, ⟨info, hf, e⟩ | ⟨hf, m, hm, e⟩⟩⟩ := readCodeword_cases k u s
  · rw [e]; exact ⟨_, rfl, .read bs k _ hi he (by omega) hb hd⟩
  · rw [e]; exact ⟨_, rfl, .read bs (k+1) _ hi he (by omega) hb hd⟩
  · rw [e]; exact ⟨_, rfl, .readFailed bs info hi he (by omega) hd hf⟩
  · rw [e]; exact ⟨_, rfl, .readHangs bs m hi he hm.symm (by omega) hd hf⟩


/-- A command that answers a clean fault. -/
theorem refused_of_exec (i : Instr) (s : State) (st : Status) (h : st ≠ .ok ∧ st ≠ .sinkFail ∧ st ≠ .sourceFail)
    (e : exec i s = .next (raiseFault st 0 s)) : ∃ t, exec i s = .next t ∧ Effect i s t := ⟨_, e, .refused st h⟩

theorem effect_bwWrite (v : Byte) (size : Size) (s : State) : ∃ t, exec (.bwWrite v size) s = .next t ∧ Effect (.bwWrite v size) s t := by
  cases he : s.bw.err with
  | true => exact refused_of_exec _ _ .unitFaulted (by decide) (by simp [exec, execBwWrite, writerFaulted, he])
  | false =>
    by_cases hs : size.toNat ≤ 8
    · rw [exec_bwWrite _ _ _ he hs]
      exact effect_write _ s _ _ rfl he (by have := s.bw.pend.isLt; simp only [putCount, sinkLimit]; omega)
    · exact refused_of_exec _ _ .sizeRange (by decide) (by simp [exec, execBwWrite, writerFaulted, he, sizeFits8, hs])

theorem effect_bwWrite32 (v : BitVec 32) (size : Size) (s : State) : ∃ t, exec (.bwWrite32 v size) s = .next t ∧ Effect (.bwWrite32 v size) s t := by
  cases he : s.bw.err with
  | true => exact refused_of_exec _ _ .unitFaulted (by decide) (by simp [exec, execBwWrite32, writerFaulted, he])
  | false =>
    by_cases hs : size.toNat ≤ 32
    · rw [exec_bwWrite32 _ _ _ he hs]
      exact effect_write _ s _ _ rfl he (by have := s.bw.pend.isLt; simp only [putCount, sinkLimit]; omega)
    · exact refused_of_exec _ _ .sizeRange (by decide) (by simp [exec, execBwWrite32, writerFaulted, he, sizeFits32, hs])

theorem effect_brRead (size : Size) (s : State) : ∃ t, exec (.brRead size) s = .next t ∧ Effect (.brRead size) s t := by
  cases he : s.br.err with
  | true => exact refused_of_exec _ _ .unitFaulted (by decide) (by simp [exec, execBrRead, readerFaulted, he])
  | false =>
    by_cases hs : size.toNat ≤ 8
    · rw [exec_brRead _ _ he hs]
      exact effect_read _ s _ rfl he (by have := s.br.pend.isLt; simp only [getCount, sourceLimit]; omega)
    · exact refused_of_exec _ _ .sizeRange (by decide) (by simp [exec, execBrRead, readerFaulted, he, sizeFits8, hs])

theorem effect_brRead32 (size : Size) (s : State) : ∃ t, exec (.brRead32 size) s = .next t ∧ Effect (.brRead32 size) s t := by
  cases he : s.br.err with
  | true => exact refused_of_exec _ _ .unitFaulted (by decide) (by simp [exec, execBrRead32, readerFaulted, he])
  | false =>
    by_cases hs : size.toNat ≤ 32
    · rw [exec_brRead32 _ _ he hs]
      exact effect_read _ s _ rfl he (by have := s.br.pend.isLt; simp only [getCount, sourceLimit]; omega)
    · exact refused_of_exec _ _ .sizeRange (by decide) (by simp [exec, execBrRead32, readerFaulted, he, sizeFits32, hs])

theorem effect_bwClose (s : State) : ∃ t, exec .bwClose s = .next t ∧ Effect .bwClose s t := by
  cases he : s.bw.err with
  | true => exact refused_of_exec _ _ .unitFaulted (by decide) (by simp [exec, execBwClose, writerFaulted, he])
  | false =>
    have e : exec .bwClose s = finish ((flushWriter s).bind fun _ t => .ok () (setWriter 0 0 t)) fun _ => noResult := by
      simp only [exec, execBwClose, writerFaulted, he]; rfl
    rw [e, flushWriter]
    split
    · cases ha : s.sink.answer with
      | accept =>
        rw [sinkPut_accept _ _ ha]; refine ⟨_, rfl, ?_⟩
        have := Effect.closed rfl he ha
        simpa [setWriter, respond_eq, he, UnitRegs.fresh] using this
      | fail info => rw [sinkPut_fail _ _ info ha]; exact ⟨_, rfl, .closeFailed info rfl he ha⟩
      | silent => rw [sinkPut_silent _ _ ha]; exact ⟨_, rfl, .closeHangs rfl he ha⟩
    · refine ⟨_, rfl, ?_⟩
      have := Effect.writerNew (i := .bwClose) rfl (.inl he)
      simpa [setWriter, respond_eq, he, UnitRegs.fresh] using this

theorem effect_brClose (s : State) : ∃ t, exec .brClose s = .next t ∧ Effect .brClose s t := by
  cases he : s.br.err with
  | true => exact refused_of_exec _ _ .unitFaulted (by decide) (by simp [exec, execBrClose, readerFaulted, he])
  | false =>
    refine ⟨_, by simp only [exec, execBrClose, readerFaulted, he]; rfl, ?_⟩
    have := Effect.readerNew (i := .brClose) rfl (.inl he)
    simpa [setReader, respond_eq, he, UnitRegs.fresh] using this

theorem effect_tbeDesc (n : Data) (s : State) : ∃ t, exec (.tbeDesc n) s = .next t ∧ Effect (.tbeDesc n) s t := by
  cases hw : fitsWidth s.params.width n with
  | false => exact refused_of_exec _ _ .illegalCmd (by decide) (by simp [exec, execTbeDesc, illegalCommand, hw])
  | true =>
    by_cases h0 : n.toNat = 0
    · exact refused_of_exec _ _ .badBound (by decide) (by simp only [exec, execTbeDesc, hw, h0]; rfl)
    · refine ⟨_, by simp only [exec, execTbeDesc, hw, if_neg h0]; rfl, .answered _ _⟩

theorem effect_tbeWrite (k : Size) (u value : Data) (s : State) :
    ∃ t, exec (.tbeWrite k u value) s = .next t ∧ Effect (.tbeWrite k u value) s t := by
  cases hw : fitsWidth s.params.width u && fitsWidth s.params.width value with
  | false => exact refused_of_exec _ _ .illegalCmd (by decide) (by simp only [exec, execTbeWrite, illegalCommand, hw]; rfl)
  | true =>
    cases he : s.bw.err with
    | true => exact refused_of_exec _ _ .unitFaulted (by decide) (by simp only [exec, execTbeWrite, hw, writerFaulted, he]; rfl)
    | false =>
      cases hd : validDescriptor s.params.width k.toNat u.toNat with
      | false => exact refused_of_exec _ _ .badDesc (by decide) (by simp only [exec, execTbeWrite, hw, writerFaulted, he, hd]; rfl)
      | true =>
        by_cases hv : value.toNat < boundOf k.toNat u.toNat
        · have hc : cleanFault (.tbeWrite k u value) s = none := by
            simp only [cleanFault, Instr.wellFormed, hw, he, hd, if_neg (Nat.not_le.2 hv)]; rfl
          rw [exec_tbeWrite _ _ _ _ he hd hv]
          have hW := width_le s.params.width
          have hk := (validDescriptor_iff _ _ _).1 hd
          refine effect_codeword _ s _ _ _ rfl (desc_fits _ _ _ _ hd hv).2.2 he ?_
          have := s.bw.pend.isLt
          have : codewordLen k.toNat u.toNat value.toNat ≤ k.toNat + 1 := by simp only [codewordLen]; split <;> omega
          simp only [putCount, sinkLimit]; omega
        · have hx : valueTooLarge k.toNat u.toNat value.toNat = true := by
            simp only [valueTooLarge, boundOf] at *; exact decide_eq_true (by omega)
          exact refused_of_exec _ _ .valueRange (by decide) (by simp only [exec, execTbeWrite, hw, writerFaulted, he, hd, hx]; rfl)

theorem effect_tbeRead (k : Size) (u : Data) (s : State) :
    ∃ t, exec (.tbeRead k u) s = .next t ∧ Effect (.tbeRead k u) s t := by
  cases hw : fitsWidth s.params.width u with
  | false => exact refused_of_exec _ _ .illegalCmd (by decide) (by simp only [exec, execTbeRead, illegalCommand, hw]; rfl)
  | true =>
    cases he : s.br.err with
    | true => exact refused_of_exec _ _ .unitFaulted (by decide) (by simp only [exec, execTbeRead, hw, readerFaulted, he]; rfl)
    | false =>
      cases hd : validDescriptor s.params.width k.toNat u.toNat with
      | false => exact refused_of_exec _ _ .badDesc (by decide) (by simp only [exec, execTbeRead, hw, readerFaulted, he, hd]; rfl)
      | true =>
        rw [exec_tbeRead _ _ _ he hd]
        have hW := width_le s.params.width
        have hW8 : s.params.width.bits % 8 = 0 := by cases s.params.width <;> rfl
        have hk := (validDescriptor_iff _ _ _).1 hd
        refine effect_readCodeword _ s _ _ rfl he ?_
        simp only [getCount, sourceLimit]; omega

/-- Every command ends in a next state, with one of the effects (60_exceptions.md R170, R182). -/
theorem exec_effect (i : Instr) (s : State) : ∃ t, exec i s = .next t ∧ Effect i s t := by
  cases i with
  | bwWrite v size => exact effect_bwWrite v size s
  | bwWrite32 v size => exact effect_bwWrite32 v size s
  | bwClose => exact effect_bwClose s
  | brRead size => exact effect_brRead size s
  | brRead32 size => exact effect_brRead32 size s
  | brClose => exact effect_brClose s
  | tbeDesc n => exact effect_tbeDesc n s
  | tbeWrite k u value => exact effect_tbeWrite k u value s
  | tbeRead k u => exact effect_tbeRead k u s
  | chunk size index =>
    simp only [exec, execChunk]
    split <;> exact ⟨_, rfl, .answered _ _⟩
  | status => exact ⟨_, rfl, .answered _ _⟩
  | bwInit => exact ⟨_, rfl, .writerNew rfl (.inr rfl)⟩
  | brInit => exact ⟨_, rfl, .readerNew rfl (.inr rfl)⟩

/-- A next state of a command comes by one of the effects. -/
theorem exec_cases (i : Instr) (s t : State) (h : exec i s = .next t) : Effect i s t := by
  obtain ⟨t', e, he⟩ := exec_effect i s
  rw [e] at h
  cases h
  exact he

end Sys2Proof.Machine
end

