-- ==== Sys2Proof/Laws/PerInstr.lean ====
section
/-! SUPPORT. The statements made per command. -/

namespace Sys2Proof.Laws.OpcodeField

/-- The opcode of a command (30_encoding.md R63). -/
def opcodeOf : Instr → Nat
  | .bwWrite _ _ => 0x1
  | .bwWrite32 _ _ => 0x2
  | .bwClose => 0x3
  | .brRead _ => 0x4
  | .brRead32 _ => 0x5
  | .brClose => 0x6
  | .tbeDesc _ => 0x7
  | .tbeWrite _ _ _ => 0x8
  | .tbeRead _ _ => 0x9
  | .chunk _ _ => 0xA
  | .status => 0xB
  | .bwInit => 0xC
  | .brInit => 0xD

/-- The field `op` of a command's word is the command's opcode (30_encoding.md R61, R63). -/
def Statement (i : Instr) : Prop := (opField (encode i)).toNat = opcodeOf i

/-- The field `op` of four fields put together is the first of them. -/
theorem opField_packWord (op : BitVec 4) (sz : Size) (a b : Data) : opField (packWord op sz a b) = op := by
  simp only [opField, packWord]
  exact BitVec.extractLsb'_append_eq_right

theorem bwWrite (value : Byte) (size : Size) : Statement (.bwWrite value size) := by
  simp [Statement, encode, opField_packWord, opcodeOf]
theorem bwWrite32 (value : BitVec 32) (size : Size) : Statement (.bwWrite32 value size) := by
  simp [Statement, encode, opField_packWord, opcodeOf]
theorem bwClose : Statement .bwClose := by
  simp [Statement, encode, opField_packWord, opcodeOf]
theorem brRead (size : Size) : Statement (.brRead size) := by
  simp [Statement, encode, opField_packWord, opcodeOf]
theorem brRead32 (size : Size) : Statement (.brRead32 size) := by
  simp [Statement, encode, opField_packWord, opcodeOf]
theorem brClose : Statement .brClose := by
  simp [Statement, encode, opField_packWord, opcodeOf]
theorem tbeDesc (n : Data) : Statement (.tbeDesc n) := by
  simp [Statement, encode, opField_packWord, opcodeOf]
theorem tbeWrite (k : Size) (u value : Data) : Statement (.tbeWrite k u value) := by
  simp [Statement, encode, opField_packWord, opcodeOf]
theorem tbeRead (k : Size) (u : Data) : Statement (.tbeRead k u) := by
  simp [Statement, encode, opField_packWord, opcodeOf]
theorem chunk (size index : Size) : Statement (.chunk size index) := by
  simp [Statement, encode, opField_packWord, opcodeOf]
theorem status : Statement .status := by
  simp [Statement, encode, opField_packWord, opcodeOf]
theorem bwInit : Statement .bwInit := by
  simp [Statement, encode, opField_packWord, opcodeOf]
theorem brInit : Statement .brInit := by
  simp [Statement, encode, opField_packWord, opcodeOf]

end Sys2Proof.Laws.OpcodeField
end

