-- ==== Sys2Proof/Laws/Steps.lean ====
section
/-! SUPPORT. What a step can do, once (30_encoding.md R60; 70_reset_and_hazards.md R200, R201). -/

namespace Sys2Proof.Machine

/-- What a command word can do: the effect of the command it decodes to, or `ILLEGAL_CMD` (60_exceptions.md R172). -/
theorem runWord_cases (w : CmdWord) (s : State) :
    (∃ i t, decode s.params.width w = .command i ∧ runWord w s = .next t ∧ Effect i s t) ∨
    runWord w s = .next (s.responded (faultResponse .illegalCmd 0)) := by
  unfold runWord
  split
  · rename_i i hi
    obtain ⟨t, e, he⟩ := exec_effect i s
    exact .inl ⟨i, t, hi, e, he⟩
  · exact .inr rfl

/-- A command word always ends in a next state. -/
theorem runWord_next (w : CmdWord) (s : State) : ∃ t, runWord w s = .next t := by
  rcases runWord_cases w s with ⟨i, t, _, e, _⟩ | e
  · exact ⟨t, e⟩
  · exact ⟨_, e⟩

/-- What a step can make of the state `s`: hardware reset, an idle wait, a command, or a command cut by hardware reset. -/
inductive StepEffect (s : State) : State → Prop
  | reset (rest) (h : s.host = .reset :: rest) : StepEffect s (hwReset { s with host := rest })
  | idle (h : s.host = []) (hw : s.waiting = none) : StepEffect s s
  | word (w rest t) (h : s.host = .command w :: rest) (hw : s.waiting = none)
     (e : runWord w { s with host := rest } = .next t) : StepEffect s t
  | cut (w rest t) (h : s.host = .abandoned w :: rest) (hw : s.waiting = none)
     (e : runWord w { s with host := rest } = .next t) : StepEffect s (abandon { s with host := rest } t)

/-- A next state of a step comes by one of the effects. -/
theorem step_cases (s t : State) (h : step s = .next t) : StepEffect s t := by
  unfold step fetch at h
  cases hh : s.host with
  | nil =>
    cases hw : s.waiting with
    | none => simp [hh, hw] at h; subst h; exact .idle hh hw
    | some p => simp [hh, hw] at h
  | cons e rest =>
    cases e with
    | reset => cases hw : s.waiting <;> simp [hh, hw] at h <;> subst h <;> (have := StepEffect.reset (s := s) rest hh; simpa [hw] using this)
    | command w =>
      cases hw : s.waiting with
      | none => simp [hh, hw] at h; refine .word w rest t hh hw ?_; simpa [hw] using h
      | some p => simp [hh, hw] at h
    | abandoned w =>
      cases hw : s.waiting with
      | none =>
        simp [hh, hw] at h
        obtain ⟨t', e⟩ := runWord_next w { s with host := rest }
        have e' := e
        simp only [hw] at e'
        rw [e'] at h; simp at h; subst h
        have := StepEffect.cut w rest t' hh hw e
        simpa [hw] using this
      | some p => simp [hh, hw] at h

end Sys2Proof.Machine
end

