-- ==== Sys2Proof/Tests/Slice0.lean ====
section
/-! SUPPORT. The model's own tests, their expected values from spec/95_test_vectors.md and the rules named, and one witness for
the hypotheses of each statement. -/

open Sys2Proof Sys2Proof.Machine

namespace Sys2Proof.Tests

/-! ## Helpers -/

/-- A value of the next state, if there is one. -/
def seen {α : Type} (f : State → α) : Host.Outcome State Fault Refusal → Option α
  | .next t => some (f t)
  | .fault _ => none
  | .refused _ => none

/-- The last response. -/
def answer (o : Host.Outcome State Fault Refusal) : Option Response := (seen (fun t => t.responses.getLast?) o).join

/-- A machine right after reset whose writer unit holds `pend` bits. -/
def writing (buf : Byte) (pend : BitVec 3) : State :=
  { State.reset with bw := { buf := buf, pend := pend, err := false } }

/-- A machine right after reset whose reader unit holds `pend` bits and whose source delivers `bytes`. -/
def reading (buf : Byte) (pend : BitVec 3) (bytes : List Byte) : State :=
  { State.reset with
    br := { buf := buf, pend := pend, err := false }
    source := { script := bytes.map SourceAnswer.byte, rest := .fail 1 } }

/-- `s` with a sink that gives these answers first. -/
def withSink (script : List SinkAnswer) (s : State) : State := { s with sink := { s.sink with script := script } }

/-- A machine right after reset with both units faulted. -/
def faulted : State :=
  { State.reset with bw := { UnitRegs.fresh with err := true }, br := { UnitRegs.fresh with err := true } }

/-- A machine right after reset whose host does one thing. -/
def hosted (e : HostEvent) : State := { State.reset with host := [e] }

/-! ## Well-formedness: every check has a term it refuses (30_encoding.md R65) -/

theorem test_wf_tbeDesc_bound : (Instr.tbeDesc 0x100).wellFormed .w8 = false := by decide
theorem test_wf_tbeWrite_threshold : (Instr.tbeWrite 2 0x100000000 4).wellFormed .w32 = false := by decide
theorem test_wf_tbeWrite_value : (Instr.tbeWrite 2 3 0x10000).wellFormed .w16 = false := by decide
theorem test_wf_tbeRead_threshold : (Instr.tbeRead 2 0x100000000).wellFormed .w32 = false := by decide
theorem test_wf_widest : (Instr.tbeWrite 255 0xFFFFFFFFFFFFFFFF 0xFFFFFFFFFFFFFFFF).wellFormed .w64 = true := by decide

/-! ## Words (95_test_vectors.md sections 2.1 and 2.2; 30_encoding.md section 8) -/

theorem test_word_bwWrite : decode .w32 0x000000000000000000000000000000A5081 = .command (.bwWrite 0xA5 8) := by decide
theorem test_word_bwWrite32 :
    decode .w32 0x00000000000000000000000012345678202 = .command (.bwWrite32 0x12345678 32) := by decide
theorem test_word_bwClose : decode .w32 0x00000000000000000000000000000000003 = .command .bwClose := by decide
theorem test_word_brRead : decode .w32 0x00000000000000000000000000000000034 = .command (.brRead 3) := by decide
theorem test_word_brRead32 : decode .w32 0x00000000000000000000000000000000115 = .command (.brRead32 17) := by decide
theorem test_word_brClose : decode .w32 0x00000000000000000000000000000000006 = .command .brClose := by decide
theorem test_word_tbeDesc :
    decode .w32 0x000000000000000000000000FFFFFFFF007 = .command (.tbeDesc 4294967295) := by decide
theorem test_word_tbeWrite :
    decode .w32 0x0000000080000000000000007FFFFFFF1F8 = .command (.tbeWrite 31 2147483648 2147483647) := by decide
theorem test_word_tbeRead : decode .w32 0x000000000000000100000000000000001F9 = .command (.tbeRead 31 1) := by decide
theorem test_word_chunk : decode .w32 0x0000000000000000000000000000001FFFA = .command (.chunk 255 31) := by decide
theorem test_word_status : decode .w32 0x0000000000000000000000000000000000B = .command .status := by decide
theorem test_word_bwInit : decode .w32 0x0000000000000000000000000000000000C = .command .bwInit := by decide
theorem test_word_brInit : decode .w32 0x0000000000000000000000000000000000D = .command .brInit := by decide

/-- The words of section 2.2 with a reserved opcode. -/
theorem test_reserved_opcodes :
    decode .w32 0x00000000000000000000000000000000000 = .illegal .reservedOpcode ∧
    decode .w32 0x0000000000000000000000000000000000E = .illegal .reservedOpcode ∧
    decode .w32 0x0000000000000000000000000000000000F = .illegal .reservedOpcode := by decide

/-- The words of section 2.2 with a reserved bit set. -/
theorem test_reserved_bits :
    ([0x00000000000000000000000000000000013, 0x00000000000000000000000000000001003,
      0x00000000000000000000000000000100081, 0x000000000000000100000000000000A5081,
      0x00000000000000000000000100000000202, 0x00000000000000000000000000000001034,
      0x00000000000000000000000000000005017, 0x00000000000000000000000100000000007,
      0x00000001000000030000000000000004028, 0x00000000000000030000000000000001029,
      0x0000000000000000000000000000010213A, 0x8000000000000000000000000000000000B,
      0x00000000000000010000000000000000C81].map (decode .w32)).all (· == .illegal .reservedBit) = true := by decide

/-- The column "reserved_zero_mask" of spec/opcode_table.json, opcodes 1 to 13 at `W = 32`. -/
theorem test_reserved_masks :
    [1, 2, 3, 4, 5, 6, 7, 8, 9, 10, 11, 12, 13].map (reservedMask .w32) =
     [0xFFFFFFFFFFFFFFFFFFFFFFFFFFFFFF00000, 0xFFFFFFFFFFFFFFFFFFFFFFFF00000000000,
      0xFFFFFFFFFFFFFFFFFFFFFFFFFFFFFFFFFF0, 0xFFFFFFFFFFFFFFFFFFFFFFFFFFFFFFFF000,
      0xFFFFFFFFFFFFFFFFFFFFFFFFFFFFFFFF000, 0xFFFFFFFFFFFFFFFFFFFFFFFFFFFFFFFFFF0,
      0xFFFFFFFFFFFFFFFFFFFFFFFF00000000FF0, 0xFFFFFFFF00000000FFFFFFFF00000000000,
      0xFFFFFFFF00000000FFFFFFFFFFFFFFFF000, 0xFFFFFFFFFFFFFFFFFFFFFFFFFFFFFF00000,
      0xFFFFFFFFFFFFFFFFFFFFFFFFFFFFFFFFFF0, 0xFFFFFFFFFFFFFFFFFFFFFFFFFFFFFFFFFF0,
      0xFFFFFFFFFFFFFFFFFFFFFFFFFFFFFFFFFF0] := by decide

/-- The same column at the other widths, for the three commands whose mask depends on the width. -/
theorem test_reserved_masks_widths :
    [reservedMask .w8 7, reservedMask .w16 7, reservedMask .w64 7, reservedMask .w8 8, reservedMask .w16 8,
      reservedMask .w64 8, reservedMask .w8 9, reservedMask .w16 9, reservedMask .w64 9] =
     [0xFFFFFFFFFFFFFFFFFFFFFFFFFFFFFF00FF0, 0xFFFFFFFFFFFFFFFFFFFFFFFFFFFF0000FF0,
      0xFFFFFFFFFFFFFFFF0000000000000000FF0, 0xFFFFFFFFFFFFFF00FFFFFFFFFFFFFF00000,
      0xFFFFFFFFFFFF0000FFFFFFFFFFFF0000000, 0x00000000000000000000000000000000000,
      0xFFFFFFFFFFFFFF00FFFFFFFFFFFFFFFF000, 0xFFFFFFFFFFFF0000FFFFFFFFFFFFFFFF000,
      0x0000000000000000FFFFFFFFFFFFFFFF000] := by decide

/-- The table's words, as the host numbers their bits. -/
theorem test_table_word : decodeTableWord 144 0 = none ∧
    decodeTableWord 144 0x00000000000000030000000000000004028 = some (.tbeWrite 2 3 4) := by decide

/-- A presented word is fetched and run (95_test_vectors.md section 2.3, `TBE.DESC 5`). -/
theorem test_withFetchWord :
    (answer (step (State.reset.withFetchWord 144 0x00000000000000000000000000000005007))).map (Response.word 8) =
      some 0x000000000000000003020 := by decide

/-! ## One step of each command (95_test_vectors.md sections 3 to 7) -/

/-- Section 4.1: `7F/7`, `BW.WRITE 0xFF, 8` sends `FF` and leaves `7F/7`. -/
theorem test_bwWrite_largest :
    seen (fun t => (t.snk, t.bw)) (exec (.bwWrite 0xFF 8) (writing 0x7F 7)) =
      some ([0xFF], { buf := 0x7F, pend := 7, err := false }) := by decide

/-- Section 4.1: `00/0`, `BW.WRITE 0xFF, 3` ignores the value's bits above the size. -/
theorem test_bwWrite_masks :
    seen (fun t => (t.snk, t.bw)) (exec (.bwWrite 0xFF 3) (writing 0 0)) =
      some ([], { buf := 7, pend := 3, err := false }) := by decide

/-- 41_bit_writer.md R95: the low byte goes out first. -/
theorem test_bwWrite32_order :
    seen (fun t => (t.snk, t.bw)) (exec (.bwWrite32 0x12345678 32) (writing 0 0)) =
      some ([0x78, 0x56, 0x34, 0x12], UnitRegs.fresh) := by decide

/-- 60_exceptions.md R176: the failure information is in the response, the byte before stays sent. -/
theorem test_bwWrite32_sink_fails :
    seen (fun t => (t.snk, t.bw.err, t.responses))
      (exec (.bwWrite32 0x12345678 32) (withSink [.accept, .fail 0x5A] (writing 0 0))) =
      some ([0x78], true, [faultResponse .sinkFail 0x5A]) := by decide

/-- Section 4.2: `01/1`, `BW.CLOSE` sends `01`. -/
theorem test_bwClose_pads :
    seen (fun t => (t.snk, t.bw)) (exec .bwClose (writing 1 1)) = some ([1], UnitRegs.fresh) := by decide

/-- 41_bit_writer.md R98: with no pending bits nothing goes out. -/
theorem test_bwClose_empty :
    seen (fun t => (t.snk, t.bw)) (exec .bwClose (writing 0 0)) = some ([], UnitRegs.fresh) := by decide

/-- 42_bit_reader.md R111: three bits of `BD` are `101`, five stay. -/
theorem test_brRead_fetches :
    seen (fun t => (t.spos, t.br, t.responses)) (exec (.brRead 3) (reading 0 0 [0xBD])) =
      some (1, { buf := 0x17, pend := 5, err := false }, [okResponse 0 5]) := by decide

/-- 60_exceptions.md R176: the source fails at its end. -/
theorem test_brRead_source_fails :
    seen (fun t => (t.spos, t.br.err, t.responses)) (exec (.brRead 1) (reading 0 0 [])) =
      some (0, true, [faultResponse .sourceFail 1]) := by decide

/-- 42_bit_reader.md R115: the low byte comes first. -/
theorem test_brRead32_order :
    seen (fun t => (t.spos, t.br, t.responses)) (exec (.brRead32 32) (reading 0 0 [0x78, 0x56, 0x34, 0x12])) =
      some (4, UnitRegs.fresh, [okResponse 0 0x12345678]) := by decide

/-- 42_bit_reader.md R118: the unconsumed bits are dropped, the source is not touched. -/
theorem test_brClose_drops :
    seen (fun t => (t.spos, t.br, t.responses)) (exec .brClose (reading 0x17 5 [0xFF])) =
      some (0, UnitRegs.fresh, [okResponse 0 0]) := by decide

/-- Section 2.3: `TBE.DESC 5` and the two ends of the range. -/
theorem test_tbeDesc_ends :
    [1, 5, 2147483648, 4294967295].map (fun n => answer (exec (.tbeDesc n) State.reset)) =
      [some (okResponse 0 1), some (okResponse 2 3), some (okResponse 31 2147483648), some (okResponse 31 1)] := by decide

/-- Section 1, S6: value 4 of bound 5 is written as `111`. -/
theorem test_tbeWrite_long :
    seen (fun t => (t.snk, t.bw)) (exec (.tbeWrite 2 3 4) (writing 0 0)) =
      some ([], { buf := 7, pend := 3, err := false }) := by decide

/-- Section 1, S6: value 3 of bound 5 is written as `110`, after the pending bit `1`. -/
theorem test_tbeWrite_order :
    seen (fun t => (t.snk, t.bw)) (exec (.tbeWrite 2 3 3) (writing 1 1)) =
      some ([], { buf := 7, pend := 4, err := false }) := by decide

/-- Section 1, S6: `111` reads as 4. -/
theorem test_tbeRead_long :
    seen (fun t => (t.br, t.responses)) (exec (.tbeRead 2 3) (reading 0 0 [7])) =
      some ({ buf := 0, pend := 5, err := false }, [okResponse 0 4]) := by decide

/-- Section 1, S6: `01` reads as 2, and the bit after it stays. -/
theorem test_tbeRead_short :
    seen (fun t => (t.br, t.responses)) (exec (.tbeRead 2 3) (reading 6 3 [])) =
      some ({ buf := 1, pend := 1, err := false }, [okResponse 0 2]) := by decide

/-- Section 3. -/
theorem test_chunk_rows :
    [(19, 2), (19, 3), (255, 31), (255, 32), (200, 25)].map
      (fun p : Size × Size => (answer (exec (.chunk p.1 p.2) State.reset)).map Response.data) =
      [some 0x1310, some 0, some 0x17F8, some 0, some 0] := by decide

/-- Section 2.3: `BW = 0E/4/0`, `BR = 00/0/0`. -/
theorem test_status_writer : answer (exec .status (writing 0x0E 4)) = some (okResponse 0 0x40E) := by decide

/-- 10_state.md R34: the reader's bits stand at [27:16], the flags at 11 and 27. -/
theorem test_status_reader :
    (answer (exec .status (reading 0x17 5 []))).map Response.data = some 0x5170000 ∧
    (answer (exec .status faulted)).map Response.data = some 0x8000800 := by decide

/-- 41_bit_writer.md R100 and 42_bit_reader.md R119: the flags are cleared. -/
theorem test_inits_recover :
    seen State.bw (exec .bwInit faulted) = some UnitRegs.fresh ∧
    seen State.br (exec .brInit faulted) = some UnitRegs.fresh := by decide

/-- 60_exceptions.md R179: the unit's flag is checked before the operands, a reserved bit before both. -/
theorem test_fault_order :
    answer (exec (.bwWrite 0 9) faulted) = some (faultResponse .unitFaulted 0) ∧
    answer (exec (.tbeWrite 200 0 0) faulted) = some (faultResponse .unitFaulted 0) ∧
    answer (exec (.tbeWrite 2 0x100000000 0) faulted) = some (faultResponse .illegalCmd 0) ∧
    answer (exec (.tbeWrite 2 5 9) State.reset) = some (faultResponse .badDesc 0) := by decide

/-! ## Witnesses: for each statement with hypotheses, states and operands that meet them, at the edges of each clause -/

theorem witness_DecodeOfEncodeIsTheCommand :
    (Instr.tbeDesc 0xFF).wellFormed .w8 = true ∧
    (Instr.tbeWrite 31 0x80000000 0xFFFFFFFF).wellFormed .w32 = true := by decide

theorem witness_DecodedCommandEncodesToItsWord :
    decode .w32 0x000000000000000100000000000000001F9 = .command (.tbeRead 31 1) := by decide

theorem witness_ReservedWordsAreIllegal :
    (hosted (.command 0)).host = .command 0 :: [] ∧ (hosted (.command 0)).waiting = none ∧
    reservedWord .w32 0 ∧ reservedWord .w32 0x00000000000000000000000100000000007 ∧
    ¬ reservedWord .w32 0x000000000000000000000000FFFFFFFF007 ∧
    ¬ reservedWord .w64 0x00000000000000000000000100000000007 := by
  unfold reservedWord
  decide

theorem witness_StepRunsTheDecodedCommand :
    (hosted (.command 0xB)).host = .command 0xB :: [] ∧ (hosted (.command 0xB)).waiting = none ∧
    decode (hosted (.command 0xB)).params.width 0xB = .command .status ∧
    Instr.status.wellFormed (hosted (.command 0xB)).params.width = true := by decide

theorem witness_CoreWithoutCommandWaits :
    (State.reset.host = [] ∧ State.reset.waiting = none) ∧
    ({ hosted (.command 0xB) with waiting := some .sink } : State).waiting = some .sink ∧
    ∀ rest, ({ hosted (.command 0xB) with waiting := some .sink } : State).host ≠ .reset :: rest :=
  ⟨⟨rfl, rfl⟩, rfl, fun _ h => by cases h⟩

theorem witness_HardwareResetClearsTheRegisters :
    ({ hosted .reset with waiting := some .source } : State).host = .reset :: [] ∧
    (hosted (.abandoned 0xB)).host = .abandoned 0xB :: [] ∧ (hosted (.abandoned 0xB)).waiting = none ∧
    ∃ t, step { hosted (.abandoned 0xB) with host := [.command 0xB] } = .next t :=
  ⟨rfl, rfl, rfl, _, rfl⟩

theorem witness_StepKeepsGoodStates :
    (hosted (.command 0xC)).Inv ∧ ∃ t, step (hosted (.command 0xC)) = .next t := by
  refine ⟨⟨fun _ => by decide, fun _ => by decide, ⟨fun _ h => (List.not_mem_nil h).elim, trivial⟩,
    ⟨fun _ h => (List.not_mem_nil h).elim, ?_⟩, fun _ h => (List.not_mem_nil h).elim⟩, _, rfl⟩
  show 1 < 2 ^ 8
  decide

theorem witness_StepOnlyExtendsHistories : ∃ t, step (hosted (.command 0xC)) = .next t := ⟨_, rfl⟩

theorem witness_ErrorFlagsAreSticky :
    (∃ t, step { faulted with host := [.command 0xC] } = .next t ∧ faulted.bw.err = true ∧ t.bw.err = false) ∧
    (∃ t, step { faulted with host := [.command 0xD] } = .next t ∧ faulted.br.err = true ∧ t.br.err = false) ∧
    ∃ t, step { faulted with host := [.abandoned 0xB] } = .next t ∧ t.bw.err = false ∧ t.br.err = false :=
  ⟨⟨_, rfl, rfl, rfl⟩, ⟨_, rfl, rfl, rfl⟩, ⟨_, rfl, rfl, rfl⟩⟩

theorem witness_UnitsAreIndependent :
    (∃ t, exec (.brRead 3) (reading 0 0 [0xBD]) = .next t) ∧ runsOnWriter (.brRead 3) = false ∧
    (∃ t, exec (.bwWrite 0xFF 8) (writing 0x7F 7) = .next t) ∧ runsOnReader (.bwWrite 0xFF 8) = false ∧
    Instr.brRead 3 ≠ .status ∧ Instr.bwWrite 0xFF 8 ≠ .status :=
  ⟨⟨_, rfl⟩, rfl, ⟨_, rfl⟩, rfl, by decide, by decide⟩

theorem witness_EveryCommandGivesOneResponse :
    (∃ t, exec .status State.reset = .next t) ∧
    ∃ t, exec (.bwWrite 0 8) (withSink [.silent] State.reset) = .next t := ⟨⟨_, rfl⟩, ⟨_, rfl⟩⟩

theorem witness_FaultedUnitRefuses :
    (Instr.tbeWrite 0 1 0).wellFormed faulted.params.width = true ∧
    (runsOnWriter (.tbeWrite 0 1 0) = true ∧ Instr.tbeWrite 0 1 0 ≠ .bwInit ∧ faulted.bw.err = true) ∧
    Instr.brClose.wellFormed faulted.params.width = true ∧
    (runsOnReader .brClose = true ∧ Instr.brClose ≠ .brInit ∧ faulted.br.err = true) := by decide

theorem witness_CleanFaultsLeaveNoTrace :
    ∃ t r, exec (.bwWrite 0 9) State.reset = .next t ∧ t.responses = State.reset.responses ++ [r] ∧
      r.status ≠ .ok ∧ r.status ≠ .sinkFail ∧ r.status ≠ .sourceFail :=
  ⟨_, _, rfl, rfl, by decide, by decide, by decide⟩

theorem witness_FaultsComeInTheFixedOrder :
    cleanFault (.bwWrite 0 9) faulted = some .unitFaulted ∧ cleanFault (.tbeWrite 2 5 9) State.reset = some .badDesc ∧
    cleanFault (.tbeWrite 2 3 5) State.reset = some .valueRange ∧ cleanFault (.tbeWrite 2 3 4) State.reset = none ∧
    cleanFault (.bwWrite 0 8) State.reset = none ∧ cleanFault .bwInit faulted = none := by decide

theorem witness_SizeOutOfRangeIsRefused :
    9 ≤ (9 : Size).toNat ∧ 33 ≤ (33 : Size).toNat ∧ 33 ≤ (255 : Size).toNat ∧
    State.reset.bw.err = false ∧ State.reset.br.err = false := by decide

theorem witness_BadDescriptorIsRefused :
    State.reset.params.width.bits = 32 ∧ State.reset.bw.err = false ∧ State.reset.br.err = false ∧
    ((1 : Data).toNat < 2 ^ 32 ∧ (32 : Size).toNat > 32 - 1) ∧
    ((0 : Data).toNat < 2 ^ 32 ∧ (0 : Data).toNat = 0) ∧
    ((5 : Data).toNat < 2 ^ 32 ∧ (5 : Data).toNat > 2 ^ (2 : Size).toNat) ∧
    (0xFFFFFFFF : Data).toNat < 2 ^ 32 := by decide

theorem witness_ValueOutOfRangeIsRefused :
    State.reset.params.width.bits = 32 ∧ State.reset.bw.err = false ∧
    ((1 : Data).toNat < 2 ^ 32 ∧ (0xFFFFFFFF : Data).toNat < 2 ^ 32 ∧ (31 : Size).toNat ≤ 32 - 1 ∧
      1 ≤ (1 : Data).toNat ∧ (1 : Data).toNat ≤ 2 ^ (31 : Size).toNat ∧
      2 ^ ((31 : Size).toNat + 1) - (1 : Data).toNat ≤ (0xFFFFFFFF : Data).toNat) ∧
    ((4 : Data).toNat ≤ 2 ^ (2 : Size).toNat ∧ 2 ^ ((2 : Size).toNat + 1) - (4 : Data).toNat ≤ (4 : Data).toNat) := by
  decide

theorem witness_SinkFailureEndsTheCommand :
    (writing 0x7F 7).bw.err = false ∧
    ((withSink [.fail 0x5A] (writing 0x7F 7)).sink.accepts 0 ∧
      ((withSink [.fail 0x5A] (writing 0x7F 7)).sink.skip 0).answer = .fail 0x5A ∧
      (1 : Size).toNat ≤ 8 ∧ 0 < putCount (1 : Size).toNat (writing 0x7F 7) ∧
      validDescriptor .w32 2 3 = true ∧ 4 < boundOf 2 3 ∧ 0 < putCount (codewordLen 2 3 4) (writing 0x7F 7) ∧
      0 < (writing 0x7F 7).bw.pend.toNat) ∧
    (withSink [.accept, .accept, .accept, .fail 0x5A] (writing 0 0)).sink.accepts 3 ∧
    ((withSink [.accept, .accept, .accept, .fail 0x5A] (writing 0 0)).sink.skip 3).answer = .fail 0x5A ∧
    (32 : Size).toNat ≤ 32 ∧ 3 < putCount (32 : Size).toNat (writing 0 0) :=
  ⟨rfl, ⟨trivial, rfl, by decide, by decide, by decide, by decide, by decide, by decide⟩,
    ⟨rfl, rfl, rfl, trivial⟩, rfl, by decide, by decide⟩

theorem witness_SourceFailureEndsTheCommand :
    (reading 0 0 [0xFF]).br.err = false ∧
    ((reading 0 0 []).source.delivers [] ∧ ((reading 0 0 []).source.skip 0).answer = .fail 1 ∧
      (1 : Size).toNat ≤ 8 ∧ 0 < getCount (1 : Size).toNat (reading 0 0 []) ∧ 0 < getCount 2 (reading 0 0 [])) ∧
    ((reading 0 0 [0xFF]).source.delivers [0xFF] ∧ ((reading 0 0 [0xFF]).source.skip 1).answer = .fail 1 ∧
      (9 : Size).toNat ≤ 32 ∧ 1 < getCount (9 : Size).toNat (reading 0 0 [0xFF]) ∧
      validDescriptor .w32 8 1 = true ∧ 1 = getCount 8 (reading 0 0 [0xFF]) ∧
      1 < getCount (8 + 1) (reading 0 0 [0xFF]) ∧ 1 ≤ comingBits [0xFF] (reading 0 0 [0xFF]) % 2 ^ 8) :=
  ⟨rfl, ⟨trivial, rfl, by decide, by decide, by decide⟩, ⟨rfl, trivial⟩, rfl, by decide, by decide, by decide,
    by decide, by decide, by decide⟩

/-- Each clause at the first transfer and at its last one. -/
theorem witness_UnansweredTransferHangs :
    ((writing 0x7F 7).bw.err = false ∧ (withSink [.silent] (writing 0x7F 7)).sink.accepts 0 ∧
      ((withSink [.silent] (writing 0x7F 7)).sink.skip 0).answer = .silent ∧
      (1 : Size).toNat ≤ 8 ∧ 0 < putCount (1 : Size).toNat (writing 0x7F 7) ∧
      validDescriptor .w32 2 3 = true ∧ 4 < boundOf 2 3 ∧ 0 < putCount (codewordLen 2 3 4) (writing 0x7F 7) ∧
      0 < (writing 0x7F 7).bw.pend.toNat) ∧
    ((withSink [.accept, .accept, .accept, .silent] (writing 0 0)).sink.accepts 3 ∧
      ((withSink [.accept, .accept, .accept, .silent] (writing 0 0)).sink.skip 3).answer = .silent ∧
      (32 : Size).toNat ≤ 32 ∧ 3 < putCount (32 : Size).toNat (writing 0 0)) ∧
    ((reading 0 0 []).br.err = false ∧ Source.delivers [] { script := [.silent], rest := .silent } ∧
      (Source.skip 0 { script := [.silent], rest := .silent }).answer = .silent ∧
      (1 : Size).toNat ≤ 8 ∧ 0 < getCount (1 : Size).toNat (reading 0 0 []) ∧ 0 < getCount 2 (reading 0 0 [])) ∧
    (Source.delivers [0xFF] { script := [.byte 0xFF, .silent], rest := .silent } ∧
      (Source.skip 1 { script := [.byte 0xFF, .silent], rest := .silent }).answer = .silent ∧
      (9 : Size).toNat ≤ 32 ∧ 1 < getCount (9 : Size).toNat (reading 0 0 []) ∧
      validDescriptor .w32 8 1 = true ∧ 1 = getCount 8 (reading 0 0 []) ∧
      1 < getCount (8 + 1) (reading 0 0 []) ∧ 1 ≤ comingBits [0xFF] (reading 0 0 []) % 2 ^ 8) :=
  ⟨⟨rfl, trivial, rfl, by decide, by decide, by decide, by decide, by decide, by decide⟩,
    ⟨⟨rfl, rfl, rfl, trivial⟩, rfl, by decide, by decide⟩,
    ⟨rfl, trivial, rfl, by decide, by decide, by decide⟩,
    ⟨rfl, trivial⟩, rfl, by decide, by decide, by decide, by decide, by decide, by decide⟩

theorem witness_ResponseWordLayout :
    (faultResponse .sinkFail 255).ioinfo < 2 ^ 8 ∧ (okResponse 31 1).ioinfo < 2 ^ 0 := by decide

theorem witness_BwWriteCompletes :
    (writing 0x7F 7).bw.err = false ∧ (8 : Size).toNat ≤ 8 ∧
    (writing 0x7F 7).sink.accepts (putCount (8 : Size).toNat (writing 0x7F 7)) :=
  ⟨rfl, by decide, ⟨rfl, trivial⟩⟩

theorem witness_BwWrite32Completes :
    (writing 0x7F 7).bw.err = false ∧ (32 : Size).toNat ≤ 32 ∧
    (writing 0x7F 7).sink.accepts (putCount (32 : Size).toNat (writing 0x7F 7)) :=
  ⟨rfl, by decide, ⟨rfl, rfl, rfl, rfl, trivial⟩⟩

theorem witness_BwCloseCompletes :
    ((writing 1 1).bw.err = false ∧ 0 < (writing 1 1).bw.pend.toNat ∧ (writing 1 1).sink.answer = .accept) ∧
    (writing 0 0).bw.err = false ∧ (writing 0 0).bw.pend.toNat = 0 := by decide

theorem witness_InitAndReaderCloseComplete : (reading 0x17 5 []).br.err = false := by decide

theorem witness_BrReadCompletes :
    (reading 1 1 [0xFF]).br.err = false ∧ (8 : Size).toNat ≤ 8 ∧
    [(0xFF : Byte)].length = getCount (8 : Size).toNat (reading 1 1 [0xFF]) ∧
    (reading 1 1 [0xFF]).source.delivers [0xFF] :=
  ⟨rfl, by decide, by decide, ⟨rfl, trivial⟩⟩

theorem witness_BrRead32Completes :
    (reading 0 0 [1, 2, 3, 4]).br.err = false ∧ (32 : Size).toNat ≤ 32 ∧
    [(1 : Byte), 2, 3, 4].length = getCount (32 : Size).toNat (reading 0 0 [1, 2, 3, 4]) ∧
    (reading 0 0 [1, 2, 3, 4]).source.delivers [1, 2, 3, 4] :=
  ⟨rfl, by decide, by decide, ⟨rfl, rfl, rfl, rfl, trivial⟩⟩

theorem witness_TbeDescCompletes :
    State.reset.params.width.bits = 32 ∧
    ((1 : Data).toNat < 2 ^ 32 ∧ 2 ^ 0 ≤ (1 : Data).toNat ∧ (1 : Data).toNat < 2 ^ (0 + 1)) ∧
    ((0xFFFFFFFF : Data).toNat < 2 ^ 32 ∧ 2 ^ 31 ≤ (0xFFFFFFFF : Data).toNat ∧
      (0xFFFFFFFF : Data).toNat < 2 ^ (31 + 1)) := by decide

theorem witness_TbeWriteCompletes :
    (writing 0x7F 7).bw.err = false ∧
    (validDescriptor (writing 0x7F 7).params.width (2 : Size).toNat (3 : Data).toNat = true ∧
      (4 : Data).toNat < boundOf (2 : Size).toNat (3 : Data).toNat ∧
      (writing 0x7F 7).sink.accepts
        (putCount (codewordLen (2 : Size).toNat (3 : Data).toNat (4 : Data).toNat) (writing 0x7F 7))) ∧
    validDescriptor (writing 0x7F 7).params.width (31 : Size).toNat (2147483648 : Data).toNat = true ∧
    (2147483647 : Data).toNat < boundOf (31 : Size).toNat (2147483648 : Data).toNat :=
  ⟨rfl, ⟨by decide, by decide, ⟨rfl, trivial⟩⟩, by decide, by decide⟩

theorem witness_TbeReadCompletes :
    (reading 6 3 []).br.err = false ∧ validDescriptor .w32 (2 : Size).toNat (3 : Data).toNat = true ∧
    ((reading 6 3 []).source.delivers [] ∧ ([] : List Byte).length = getCount (2 : Size).toNat (reading 6 3 []) ∧
      comingBits [] (reading 6 3 []) % 2 ^ (2 : Size).toNat < (3 : Data).toNat) ∧
    ((reading 3 2 [1]).source.delivers [1] ∧ [(1 : Byte)].length = getCount ((2 : Size).toNat + 1) (reading 3 2 [1]) ∧
      (3 : Data).toNat ≤ comingBits [1] (reading 3 2 [1]) % 2 ^ (2 : Size).toNat) :=
  ⟨rfl, by decide, ⟨trivial, by decide, by decide⟩, ⟨rfl, trivial⟩, by decide, by decide⟩

theorem witness_ChunkReturnsTheElement :
    (chunks (19 : Size).toNat)[(2 : Size).toNat]? = some { offset := 16, chunkSize := 3 } ∧
    (chunks (255 : Size).toNat)[(31 : Size).toNat]? = some { offset := 248, chunkSize := 7 } ∧
    (chunks (19 : Size).toNat)[(3 : Size).toNat]? = none ∧ (chunks (0 : Size).toNat)[(0 : Size).toNat]? = none := by decide

theorem witness_FloorLog2IsTheTopBit :
    (1 ≤ 1 ∧ 1 < 2 ^ Width.w8.bits ∧ 2 ^ 0 ≤ 1 ∧ 1 < 2 ^ (0 + 1)) ∧
    (1 ≤ 255 ∧ 255 < 2 ^ Width.w8.bits ∧ 2 ^ 7 ≤ 255 ∧ 255 < 2 ^ (7 + 1)) := by decide

theorem witness_ValidPairsAreTheDescriptors :
    validDescriptor .w32 0 1 = true ∧ validDescriptor .w32 31 2147483648 = true ∧
    (1 ≤ 1 ∧ 1 < 2 ^ Width.w32.bits) ∧ (1 ≤ 4294967295 ∧ 4294967295 < 2 ^ Width.w32.bits) := by decide

theorem witness_ChunksTileTheBits : (chunks 19)[2]? = some { offset := 16, chunkSize := 3 } := by decide

theorem witness_WrittenBitsAreStreamBits :
    (writing 0x15 5).bw.buf.toNat < 2 ^ (writing 0x15 5).bw.pend.toNat ∧
    (writing 0x15 5).sink.accepts (putCount 12 (writing 0x15 5)) := ⟨by decide, ⟨rfl, rfl, trivial⟩⟩

theorem witness_CodewordLayout :
    (1 ≤ 3 ∧ 3 ≤ 2 ^ 2 ∧ 2 < boundOf 2 3 ∧ 2 < 3) ∧ (3 < boundOf 2 3 ∧ 3 ≤ 3) ∧ 4 < boundOf 2 3 := by decide

theorem witness_CodewordLengthLaw :
    (∃ t r, exec (.tbeWrite 2 3 3) State.reset = .next t ∧ t.responses = State.reset.responses ++ [r] ∧ r.status = .ok) ∧
    (∃ t r, exec (.tbeRead 2 3) (reading 0 0 [7]) = .next t ∧
      t.responses = (reading 0 0 [7]).responses ++ [r] ∧ r.status = .ok) ∧
    validDescriptor .w32 2 3 = true :=
  ⟨⟨_, _, rfl, rfl, rfl⟩, ⟨_, _, rfl, rfl, rfl⟩, by decide⟩

theorem witness_DecodedValuesAreInRange :
    ∃ t r, exec (.tbeRead 2 3) (reading 0 0 [0xFF]) = .next t ∧
      t.responses = (reading 0 0 [0xFF]).responses ++ [r] ∧ r.status = .ok := ⟨_, _, rfl, rfl, rfl⟩

theorem witness_CodewordsArePrefixFree :
    1 ≤ 3 ∧ 3 ≤ 2 ^ 2 ∧ 4 < boundOf 2 3 ∧ codewordLen 2 3 4 ≤ codewordLen 2 3 4 ∧
    codeword 2 3 4 % 2 ^ codewordLen 2 3 4 = codeword 2 3 4 := by decide

theorem witness_ZeroBitCommandsLeaveNoTrace :
    State.reset.bw.err = false ∧ State.reset.br.err = false ∧ faulted.bw.err = true ∧ faulted.br.err = true ∧
    ∀ i ∈ [Instr.tbeRead 0 1, .bwWrite 0xFF 0],
      i = .tbeWrite 0 1 0 ∨ (∃ v, i = .bwWrite v 0) ∨ (∃ v, i = .bwWrite32 v 0) ∨
        i = .tbeRead 0 1 ∨ i = .brRead 0 ∨ i = .brRead32 0 := by
  refine ⟨rfl, rfl, rfl, rfl, fun i h => ?_⟩
  rcases List.mem_cons.1 h with rfl | h
  · exact .inr (.inr (.inr (.inl rfl)))
  · exact .inr (.inl ⟨0xFF, List.mem_singleton.1 h⟩)

theorem witness_PseudoCommandsAreTwoCommands :
    State.reset.params.width.bits = 32 ∧
    ((5 : Data).toNat < 2 ^ 32 ∧ 2 ^ 2 ≤ (5 : Data).toNat ∧ (5 : Data).toNat < 2 ^ (2 + 1)) ∧
    (0 : Data).toNat = 0 := by decide

theorem witness_SinkPutHandsOverOneByte :
    State.reset.sink.answer = .accept ∧ (withSink [.fail 0x5A] State.reset).sink.answer = .fail 0x5A := by decide

theorem witness_SourceGetTakesOneByte :
    (reading 0 0 [0xBD]).source.answer = .byte 0xBD ∧ State.reset.source.answer = .fail 1 ∧
    (reading 0 0 [0xBD, 1]).source = { script := [0xBD, 1].map SourceAnswer.byte, rest := .fail 1 } := by decide

theorem witness_TransferCountsAreBounded :
    (∃ t, exec (.bwWrite32 0 32) (writing 0 0) = .next t) ∧
    ∃ t, exec (.tbeRead 31 1) (reading 0 0 [0xFF, 0xFF, 0xFF, 0xFF]) = .next t := ⟨⟨_, rfl⟩, ⟨_, rfl⟩⟩

/-- A raw value, a 32-bit value and a codeword: 3 + 17 + 3 bits. -/
def items : List Item := [.raw8 0xFF 3, .raw32 0x12345 17, .tbe 2 3 4]

theorem witness_WrittenItemsReadBack :
    (∀ x ∈ items, x.legal State.reset.params.width) ∧ State.reset.bw = UnitRegs.fresh ∧
    State.reset.sink.accepts (((items.map Item.bits).sum + 7) / 8) ∧
    seen State.snk (execAll (items.map Item.put ++ [.bwClose]) State.reset) = some [0x2F, 0x1A, 0x79] ∧
    (reading 0 0 []).params.width = State.reset.params.width ∧ (reading 0 0 []).br = UnitRegs.fresh ∧
    (reading 0 0 [0x2F, 0x1A, 0x79]).source.delivers [0x2F, 0x1A, 0x79] := by
  refine ⟨fun x h => ?_, rfl, ⟨rfl, rfl, rfl, trivial⟩, by decide, rfl, rfl, ⟨rfl, rfl, rfl, trivial⟩⟩
  simp only [items, List.mem_cons, List.not_mem_nil, or_false] at h
  rcases h with rfl | rfl | rfl
  · show 3 ≤ 8
    decide
  · show 17 ≤ 32
    decide
  · exact ⟨by decide, by decide⟩

theorem witness_ClosedStreamHasCeilBytes :
    (∀ x ∈ ([] : List Item), x.legal State.reset.params.width) ∧ State.reset.bw = UnitRegs.fresh ∧
    State.reset.sink.accepts (((([] : List Item).map Item.bits).sum + 7) / 8) :=
  ⟨fun _ h => (List.not_mem_nil h).elim, rfl, trivial⟩

end Sys2Proof.Tests
end

section
/-! PROOFS. The pseudo-commands TBE.PUT and TBE.GET: what their first command TBE.DESC answers, and how `afterOk` goes on after
an `OK` response or stops at a fault (30_encoding.md R73). -/

namespace Sys2Proof.Machine

/-! ### TBE.DESC -/

/-- A bound between two neighbouring powers of two determines its `k` (43_tbe.md R131). -/
theorem floorLog2_eq_of_bounds {n k : Nat} (hlo : 2 ^ k ≤ n) (hhi : n < 2 ^ (k + 1)) : floorLog2 n = k :=
  have hn : n ≠ 0 := Nat.ne_of_gt ((Nat.two_pow_pos k).trans_le hlo)
  (Nat.log2_eq_iff hn).2 ⟨hlo, hhi⟩

theorem descU_eq_of_bounds {n k : Nat} (hlo : 2 ^ k ≤ n) (hhi : n < 2 ^ (k + 1)) : descU n = 2 ^ (k + 1) - n := by
  rw [descU, exp2, floorLog2_eq_of_bounds hlo hhi]

/-- TBE.DESC of a bound in range responds `OK` with the descriptor (43_tbe.md R136). -/
theorem exec_tbeDesc_of_bounds {n : Data} {k : Nat} {s : State} (hw : n.toNat < 2 ^ s.params.width.bits)
    (hlo : 2 ^ k ≤ n.toNat) (hhi : n.toNat < 2 ^ (k + 1)) :
    exec (.tbeDesc n) s =
      .next (s.responded (okResponse (BitVec.ofNat 8 k) (BitVec.ofNat 64 (2 ^ (k + 1) - n.toNat)))) := by
  have hn : n.toNat ≠ 0 := Nat.ne_of_gt ((Nat.two_pow_pos k).trans_le hlo)
  simp [exec, execTbeDesc, fitsWidth, hw, hn, descK, floorLog2_eq_of_bounds hlo hhi, descU_eq_of_bounds hlo hhi, respond_eq]

/-- TBE.DESC of the bound 0 responds `BAD_BOUND` (60_exceptions.md R175). -/
theorem exec_tbeDesc_of_zero {n : Data} (hn : n.toNat = 0) (s : State) :
    exec (.tbeDesc n) s = .next (s.responded (faultResponse .badBound 0)) := by
  simp [exec, execTbeDesc, fitsWidth, hn, raiseFault_eq]

/-! ### going on after a response -/

@[simp] theorem responded_getLast? (s : State) (r : Response) : (s.responded r).responses.getLast? = some r :=
  List.getLast?_concat

/-- After an `OK` response the second command runs, with its result fields (30_encoding.md R73). -/
theorem afterOk_responded_ok (s : State) (rk : BitVec 8) (data : Data)
    (next : Response → State → Host.Outcome State Fault Refusal) :
    afterOk (.next (s.responded (okResponse rk data))) next =
      next (okResponse rk data) (s.responded (okResponse rk data)) := by
  simp [afterOk, okResponse]

/-- After a fault response there is no second command (30_encoding.md R73). -/
theorem afterOk_responded_fault (s : State) {st : Status} (info : Nat) (hst : st ≠ .ok)
    (next : Response → State → Host.Outcome State Fault Refusal) :
    afterOk (.next (s.responded (faultResponse st info))) next = .next (s.responded (faultResponse st info)) := by
  simp [afterOk, faultResponse, hst]

/-! ### the two pseudo-commands -/

/-- Settles O52: TBE.DESC answers in closed form, and `afterOk` hands its descriptor on or stops at its fault. -/
theorem pseudoCommandsAreTwoCommands : Obligations.PseudoCommandsAreTwoCommands := by
  intro n value k s hw
  refine ⟨fun hlo hhi => ?inRange, fun hn => ?zero⟩
  case inRange =>
    have hdesc := exec_tbeDesc_of_bounds hw hlo hhi
    constructor
    · rw [tbePut, hdesc, afterOk_responded_ok]; rfl
    · rw [tbeGet, hdesc, afterOk_responded_ok]; rfl
  case zero =>
    have hdesc := exec_tbeDesc_of_zero hn s
    have hfault : Status.badBound ≠ .ok := by decide
    constructor
    · rw [tbePut, hdesc, afterOk_responded_fault s 0 hfault]
    · rw [tbeGet, hdesc, afterOk_responded_fault s 0 hfault]

end Sys2Proof.Machine
end

section
/-! PROOFS. The bit-chunk iterator in closed form (40_chunk_iterator.md R80): every 8 bits of a size put one whole chunk in front,
and what is left of the size, less than 8 bits, is the final pair or none. -/

namespace Sys2Proof.Machine

/-! ### the chunks of a size -/

/-- A size below 8 has no whole chunk: its chunks are the final pair, or none where the size is 0. -/
theorem chunks_of_lt_eight {r : Nat} (hr : r < 8) :
    chunks r = if r ≠ 0 then [{ offset := 0, chunkSize := r }] else [] := by
  split
  next h => exact chunks_small r (Nat.pos_of_ne_zero h) hr
  next h => rw [not_not.1 h, chunks_zero]

/-- The chunks of `8 * q + r` bits: `q` whole chunks, then the final pair where `r` is not 0. -/
theorem chunks_eight_mul_add (q : Nat) {r : Nat} (hr : r < 8) :
    chunks (8 * q + r) =
      (List.range q).map (fun i => { offset := 8 * i, chunkSize := 8 }) ++
        if r ≠ 0 then [{ offset := 8 * q, chunkSize := r }] else [] := by
  induction q with
  | zero => simpa using chunks_of_lt_eight hr
  | succ q ih =>
    have hsize : 8 * (q + 1) + r = 8 * q + r + 8 := by omega
    rw [hsize, chunks_add_eight, ih, List.range_succ_eq_map]
    split <;> simp [Function.comp_def, Nat.mul_add]

/-- Settles O42: a size is `8 * (size / 8) + size % 8`, and `chunks_eight_mul_add` says the chunks of such a sum, by induction
on the number of whole chunks. -/
theorem chunksFollowTheContract : Obligations.ChunksFollowTheContract := by
  intro size
  have hrest : size % 8 < 8 := Nat.mod_lt size (by decide)
  have hchunks := chunks_eight_mul_add (size / 8) hrest
  rwa [Nat.div_add_mod] at hchunks

end Sys2Proof.Machine
end

section
/-! PROOFS. `floor_log2` is the position of the most significant 1 bit (43_tbe.md R131). -/

namespace Sys2Proof.Machine

/-- A number from 1 on lies between two neighbouring powers of two at its `floor_log2`. -/
theorem floorLog2_bounds {n : Nat} (hn : 1 ≤ n) : 2 ^ floorLog2 n ≤ n ∧ n < 2 ^ (floorLog2 n + 1) :=
  (Nat.log2_eq_iff (Nat.one_le_iff_ne_zero.1 hn)).1 rfl

/-- A number of `m` bits has its most significant bit below position `m`. -/
theorem floorLog2_lt {n m : Nat} (hn : 1 ≤ n) (h : n < 2 ^ m) : floorLog2 n < m :=
  (Nat.pow_lt_pow_iff_right (by decide)).1 ((floorLog2_bounds hn).1.trans_lt h)

/-- The largest number of `e + 1` bits has its most significant bit at `e`. -/
theorem floorLog2_two_pow_succ_sub_one (e : Nat) : floorLog2 (2 ^ (e + 1) - 1) = e := by
  have hpos := Nat.two_pow_pos e
  have hsucc : 2 ^ (e + 1) = 2 ^ e + 2 ^ e := Nat.two_pow_succ e
  exact floorLog2_eq_of_bounds (by omega) (by omega)

/-- Settles O40: the bounds of `floor_log2`, and its uniqueness between them, also give its values at 1, 2, 3 and `2^W - 1`. -/
theorem floorLog2IsTheTopBit : Obligations.FloorLog2IsTheTopBit := by
  refine ⟨fun W n hn hW => ?position, floorLog2_eq_of_bounds (by decide) (by decide),
    floorLog2_eq_of_bounds (by decide) (by decide), floorLog2_eq_of_bounds (by decide) (by decide), fun W => ?largest⟩
  case position =>
    obtain ⟨hlo, hhi⟩ := floorLog2_bounds hn
    exact ⟨Nat.le_sub_one_of_lt (floorLog2_lt hn hW), hlo, hhi, fun e he he' => (floorLog2_eq_of_bounds he he').symm⟩
  case largest =>
    have hW : W.bits - 1 + 1 = W.bits := Nat.sub_add_cancel ((by decide : 1 ≤ 8).trans (width_le W).1)
    simpa only [hW] using floorLog2_two_pow_succ_sub_one (W.bits - 1)

end Sys2Proof.Machine
end

section
/-! PROOFS. The length law (43_tbe.md R144): what an `OK` response of TBE.WRITE or TBE.READ says of the command and of the next
state, how many bits that state has written or read, and how many values of an alphabet are short. -/

namespace Sys2Proof.Machine

/-! ### the checks of TBE.WRITE and TBE.READ -/

/-- TBE.WRITE refuses, or all its checks pass and it writes the codeword (43_tbe.md R142). -/
theorem exec_tbeWrite_refuses_or_writes (k : Size) (u value : Data) (s : State) :
    (∃ st, st ≠ .ok ∧ exec (.tbeWrite k u value) s = .next (s.responded (faultResponse st 0))) ∨
    (s.bw.err = false ∧ validDescriptor s.params.width k.toNat u.toNat = true ∧
      value.toNat < boundOf k.toNat u.toNat ∧
      exec (.tbeWrite k u value) s = finish (writeCodeword k.toNat u.toNat value.toNat s) fun _ => noResult) := by
  rw [show exec (.tbeWrite k u value) s = execTbeWrite k u value s from rfl, execTbeWrite]
  split
  next => exact .inl ⟨.illegalCmd, by decide, rfl⟩
  next =>
  split
  next => exact .inl ⟨.unitFaulted, by decide, rfl⟩
  next herr =>
  split
  next => exact .inl ⟨.badDesc, by decide, rfl⟩
  next hdesc =>
  split
  next => exact .inl ⟨.valueRange, by decide, rfl⟩
  next hvalue =>
  have hbound : value.toNat < boundOf k.toNat u.toNat := by
    simp only [valueTooLarge, decide_eq_true_eq] at hvalue
    simp only [boundOf]
    omega
  exact .inr ⟨by simpa [writerFaulted] using herr, by simpa using hdesc, hbound, rfl⟩

/-- TBE.READ refuses, or all its checks pass and it reads a codeword (43_tbe.md R146). -/
theorem exec_tbeRead_refuses_or_reads (k : Size) (u : Data) (s : State) :
    (∃ st, st ≠ .ok ∧ exec (.tbeRead k u) s = .next (s.responded (faultResponse st 0))) ∨
    (s.br.err = false ∧ validDescriptor s.params.width k.toNat u.toNat = true ∧
      exec (.tbeRead k u) s = finish (readCodeword k.toNat u.toNat s) dataResult) := by
  rw [show exec (.tbeRead k u) s = execTbeRead k u s from rfl, execTbeRead]
  split
  next => exact .inl ⟨.illegalCmd, by decide, rfl⟩
  next =>
  split
  next => exact .inl ⟨.unitFaulted, by decide, rfl⟩
  next herr =>
  split
  next => exact .inl ⟨.badDesc, by decide, rfl⟩
  next hdesc => exact .inr ⟨by simpa [readerFaulted] using herr, by simpa using hdesc, rfl⟩

/-! ### what an OK response says -/

section
variable {s s' t : State} {r : Response}

/-- Where a command's last act is the response `x`, the one response it added is `x`. -/
theorem responded_next {x : Response} (h : (.next (s'.responded x) : Host.Outcome State Fault Refusal) = .next t)
    (hs : s'.responses = s.responses) (hr : t.responses = s.responses ++ [r]) : t = s'.responded r ∧ r = x := by
  cases h
  simp only [State.responded, hs, List.append_cancel_left_eq, List.cons.injEq, and_true] at hr
  exact ⟨by rw [hr], hr.symm⟩

/-- A command that takes a fault does not respond `OK` (60_exceptions.md R170). -/
theorem status_ne_ok_of_fault {st : Status} {info : Nat}
    (h : (.next (s'.responded (faultResponse st info)) : Host.Outcome State Fault Refusal) = .next t)
    (hs : s'.responses = s.responses) (hr : t.responses = s.responses ++ [r]) (hst : st ≠ .ok) : r.status ≠ .ok := by
  obtain ⟨-, rfl⟩ := responded_next h hs hr
  exact hst

/-- A command that waits gives no response (60_exceptions.md R187). -/
theorem responses_ne_of_suspend {p : Port} (h : (.next (suspend p s') : Host.Outcome State Fault Refusal) = .next t)
    (hs : s'.responses = s.responses) : t.responses ≠ s.responses ++ [r] := by
  cases h
  simp [suspend, hs]

/-- A TBE.WRITE that responds `OK` has written the whole codeword (43_tbe.md R142). -/
theorem exec_tbeWrite_ok {k : Size} {u value : Data} (h : exec (.tbeWrite k u value) s = .next t)
    (hr : t.responses = s.responses ++ [r]) (hok : r.status = .ok) :
    t = (s.wrote (codeword k.toNat u.toNat value.toNat) (codewordLen k.toNat u.toNat value.toNat)).responded r := by
  rcases exec_tbeWrite_refuses_or_writes k u value s with ⟨st, hst, hexec⟩ | ⟨-, hdesc, hvalue, hexec⟩ <;> rw [hexec] at h
  · exact absurd hok (status_ne_ok_of_fault h rfl hr hst)
  have hrange := (desc_fits _ _ _ _ hdesc hvalue).2.2
  rcases writeCodeword_cases _ _ _ s hrange with ⟨-, hw⟩ | ⟨m, j, -, -, -, -, ⟨info, -, hw⟩ | ⟨-, hw⟩⟩ <;> rw [hw] at h
  · exact (responded_next h rfl hr).1
  · exact absurd hok (status_ne_ok_of_fault h rfl hr (by decide))
  · exact absurd hr (responses_ne_of_suspend h rfl)

/-- Reading one codeword returns a value of the alphabet and reads the length of that value's codeword, or it stops at a byte
the source fails or never answers (43_tbe.md R144, R147). -/
theorem readCodeword_reads_length_or_stops {k u : Nat} (hu : u ≤ 2 ^ k) (s : State) :
    (∃ v bs, v + u < 2 ^ (k + 1) ∧ bs.length = getCount (codewordLen k u v) s ∧
      readCodeword k u s = .ok v (s.hasRead bs (codewordLen k u v))) ∨
    (∃ info j, readCodeword k u s = .raise .sourceFail info (s.readInPart j)) ∨
    ∃ s', s'.responses = s.responses ∧ readCodeword k u s = .hang .source s' := by
  have hpow : 2 ^ (k + 1) = 2 ^ k + 2 ^ k := Nat.two_pow_succ k
  obtain ⟨bs, -, ⟨hlen, hv, hread⟩ | ⟨hlen, hv, hread⟩ | ⟨-, ⟨info, -, hread⟩ | ⟨-, m, -, hread⟩⟩⟩ := readCodeword_cases k u s
  · have hshort : codewordLen k u (comingBits bs s % 2 ^ k) = k := if_pos hv
    refine .inl ⟨_, bs, ?_, by rw [hshort, hlen], by rw [hshort, hread]⟩
    omega
  · have hfirst : comingBits bs s % 2 ^ k < 2 ^ k := Nat.mod_lt _ (Nat.two_pow_pos k)
    have hlong : codewordLen k u (2 * (comingBits bs s % 2 ^ k) + (comingBits bs s >>> k) % 2 - u) = k + 1 :=
      if_neg (by omega)
    refine .inl ⟨_, bs, ?_, by rw [hlong, hlen], by rw [hlong, hread]⟩
    omega
  · exact .inr (.inl ⟨info, bs.length, hread⟩)
  · refine .inr (.inr ⟨_, ?_, hread⟩)
    rfl

/-- A TBE.READ that responds `OK` has read the length of the codeword of the value it returns, which lies in the alphabet
(43_tbe.md R144, R147). -/
theorem exec_tbeRead_ok {k : Size} {u : Data} (h : exec (.tbeRead k u) s = .next t)
    (hr : t.responses = s.responses ++ [r]) (hok : r.status = .ok) :
    validDescriptor s.params.width k.toNat u.toNat = true ∧ r.data.toNat < boundOf k.toNat u.toNat ∧
      ∃ bs, bs.length = getCount (codewordLen k.toNat u.toNat r.data.toNat) s ∧
        t = (s.hasRead bs (codewordLen k.toNat u.toNat r.data.toNat)).responded r := by
  rcases exec_tbeRead_refuses_or_reads k u s with ⟨st, hst, hexec⟩ | ⟨-, hdesc, hexec⟩ <;> rw [hexec] at h
  · exact absurd hok (status_ne_ok_of_fault h rfl hr hst)
  obtain ⟨-, -, hu⟩ := (validDescriptor_iff _ _ _).1 hdesc
  rcases readCodeword_reads_length_or_stops hu s with ⟨v, bs, hsum, hlen, hread⟩ | ⟨info, j, hread⟩ | ⟨s', hs', hread⟩ <;>
    rw [hread] at h
  · have hvalue : v < boundOf k.toNat u.toNat := Nat.lt_sub_of_add_lt hsum
    have hfits : v < 2 ^ 64 :=
      (desc_fits _ _ _ _ hdesc hvalue).2.1.trans_le (Nat.pow_le_pow_right (by decide) (width_le _).2)
    obtain ⟨ht, hresponse⟩ := responded_next h rfl hr
    have hdata : r.data.toNat = v := by
      rw [hresponse]
      exact Nat.mod_eq_of_lt hfits
    exact ⟨hdesc, by rwa [hdata], bs, by rwa [hdata], by rwa [hdata]⟩
  · exact absurd hok (status_ne_ok_of_fault h rfl hr (by decide))
  · exact absurd hr (responses_ne_of_suspend h hs')
end

/-! ### how many bits, and how many values -/

/-- A whole write lengthens the written stream by its size (41_bit_writer.md R96). -/
theorem wrote_streamLen (s : State) (v size : Nat) : streamLen (s.wrote v size) = streamLen s + size := by
  rw [streamLen, wrote_pend]
  simp only [streamLen, State.wrote, List.length_append, streamBytes, List.length_map, List.length_range, putCount]
  omega

/-- A whole read moves the place of the next unread bit, `8 * spos - pend`, by its size (42_bit_reader.md R116). -/
theorem hasRead_position (s : State) {bs : List Byte} {size : Nat} (h : bs.length = getCount size s) :
    8 * (s.hasRead bs size).spos + s.br.pend.toNat = 8 * s.spos + (s.hasRead bs size).br.pend.toNat + size := by
  have hle := getCount_le s size
  rw [hasRead_pend s bs size h]
  simp only [State.hasRead]
  omega

/-- Of the numbers below `u + m`, the first `u` lie below `u` and the other `m` do not. -/
theorem range_filter_lengths (u m : Nat) :
    ((List.range (u + m)).filter fun v => decide (v < u)).length = u ∧
    ((List.range (u + m)).filter fun v => decide (u ≤ v)).length = m := by
  rw [List.range_add, List.filter_append, List.filter_append]
  constructor
  · rw [List.filter_eq_self.2 (by simp), List.filter_eq_nil_iff.2 (by simp)]
    simp
  · rw [List.filter_eq_nil_iff.2 (by simp), List.filter_eq_self.2 (by simp)]
    simp

/-- Settles O48: a TBE.WRITE or TBE.READ that responds `OK` has written or read `codewordLen` bits of its value's codeword, and
the alphabet is the `u` short values followed by the long ones. -/
theorem codewordLengthLaw : Obligations.CodewordLengthLaw := by
  refine ⟨fun k u value s t r h hr hok => ?written, fun k u s t r h hr hok => ?read, fun W k u hd => ?count⟩
  case written =>
    rw [exec_tbeWrite_ok h hr hok]
    exact wrote_streamLen s _ _
  case read =>
    obtain ⟨-, -, bs, hlen, ht⟩ := exec_tbeRead_ok h hr hok
    rw [ht]
    exact hasRead_position s hlen
  case count =>
    obtain ⟨-, -, hu⟩ := (validDescriptor_iff W k u).1 hd
    have hbound : u ≤ boundOf k u := by
      simp only [boundOf, exp2, Nat.two_pow_succ]
      omega
    obtain ⟨m, hm⟩ := Nat.exists_eq_add_of_le hbound
    rw [hm, Nat.add_sub_cancel_left]
    exact range_filter_lengths u m

end Sys2Proof.Machine
end

section
/-! PROOFS. Which words the decoder refuses: those with a reserved opcode or a reserved bit set, and what a step makes of them
(30_encoding.md R64, R65; 60_exceptions.md R172). -/

namespace Sys2Proof.Machine

/-! ### the reserved bits of a word, field by field -/

theorem append_eq_zero_iff {m n : Nat} {x : BitVec m} {y : BitVec n} : x ++ y = 0#(m + n) ↔ x = 0#m ∧ y = 0#n := by
  constructor
  · intro h
    have hx := congrArg (BitVec.extractLsb' n m) h
    have hy := congrArg (BitVec.extractLsb' 0 n) h
    rw [BitVec.extractLsb'_append_eq_left] at hx
    rw [BitVec.extractLsb'_append_eq_right] at hy
    exact ⟨by simpa using hx, by simpa using hy⟩
  · rintro ⟨rfl, rfl⟩
    exact BitVec.zero_append_zero

/-- A word is its four fields put together (30_encoding.md R61). -/
theorem packWord_fields (w : CmdWord) : packWord (opField w) (szField w) (aField w) (bField w) = w := by
  simp only [packWord, opField, szField, aField, bField]
  rw [BitVec.extractLsb'_append_extractLsb'_eq_extractLsb' (by rfl),
    BitVec.extractLsb'_append_extractLsb'_eq_extractLsb' (by rfl),
    BitVec.extractLsb'_append_extractLsb'_eq_extractLsb' (by rfl)]
  exact BitVec.extractLsb'_eq_self

theorem packWord_and (op op' : BitVec 4) (sz sz' : Size) (a a' b b' : Data) :
    packWord op sz a b &&& packWord op' sz' a' b' = packWord (op &&& op') (sz &&& sz') (a &&& a') (b &&& b') := by
  change (b ++ a ++ sz ++ op : BitVec (64 + 64 + 8 + 4)) &&& (b' ++ a' ++ sz' ++ op') = _
  rw [BitVec.and_append, BitVec.and_append, BitVec.and_append]
  rfl

theorem packWord_eq_zero_iff (op : BitVec 4) (sz : Size) (a b : Data) :
    packWord op sz a b = 0#140 ↔ b = 0#64 ∧ a = 0#64 ∧ sz = 0#8 ∧ op = 0#4 := by
  change (b ++ a ++ sz ++ op : BitVec (64 + 64 + 8 + 4)) = 0#(64 + 64 + 8 + 4) ↔ _
  rw [append_eq_zero_iff, append_eq_zero_iff, append_eq_zero_iff, and_assoc, and_assoc]

/-- A mask that leaves the opcode alone selects its bits field by field. -/
theorem and_packWord_eq_zero_iff (w : CmdWord) (sz : Size) (a b : Data) :
    w &&& packWord 0#4 sz a b = 0#140 ↔ bField w &&& b = 0#64 ∧ aField w &&& a = 0#64 ∧ szField w &&& sz = 0#8 := by
  conv_lhs => rw [← packWord_fields w, packWord_and, packWord_eq_zero_iff]
  simp

theorem bitsFrom_getLsbD {n i : Nat} (hi : i < 64) : (bitsFrom n).getLsbD i = decide (n ≤ i) := by
  rw [bitsFrom, BitVec.getLsbD_shiftLeft, BitVec.getLsbD_allOnes, decide_eq_true hi,
    decide_eq_true ((Nat.sub_le i n).trans_lt hi), Bool.true_and, Bool.and_true, ← decide_not, decide_eq_decide, Nat.not_lt]

/-- A field has no bit from `n` up exactly if its value is below `2^n`. -/
theorem and_bitsFrom_eq_zero_iff (x : Data) (n : Nat) : x &&& bitsFrom n = 0#64 ↔ x.toNat < 2 ^ n := by
  constructor
  · intro h
    refine Nat.lt_pow_two_of_testBit _ fun i hn => ?_
    by_cases hi : i < 64
    · have hbit := congrArg (BitVec.getLsbD · i) h
      rwa [BitVec.getLsbD_and, bitsFrom_getLsbD hi, decide_eq_true hn, Bool.and_true, BitVec.getLsbD_zero] at hbit
    · exact BitVec.getLsbD_of_ge x i (Nat.le_of_not_lt hi)
  · intro h
    refine BitVec.eq_of_getLsbD_eq fun i hi => ?_
    rw [BitVec.getLsbD_and, bitsFrom_getLsbD hi, BitVec.getLsbD_zero]
    by_cases hn : n ≤ i
    · have hbit : x.getLsbD i = false := Nat.testBit_lt_two_pow (h.trans_le (Nat.pow_le_pow_right (by decide) hn))
      rw [hbit, Bool.false_and]
    · rw [decide_eq_false hn, Bool.and_false]

theorem toNat_lt_two_pow_zero_iff {n : Nat} (x : BitVec n) : x.toNat < 2 ^ 0 ↔ x = 0#n := by
  rw [Nat.pow_zero, Nat.lt_one_iff, BitVec.toNat_eq, BitVec.toNat_zero]

/-! ### which words are commands -/

theorem accept_eq_command_iff (c : Bool) (i : Instr) : (∃ j, accept c i = .command j) ↔ c = true := by
  cases c <;> simp [accept]

/-- A word is no reserved one exactly if neither its opcode nor any of its bits is reserved (30_encoding.md R64, R65). -/
theorem not_reservedWord_iff (W : Width) (w : CmdWord) :
    ¬ reservedWord W w ↔
      ((opField w).toNat ≠ 0x0 ∧ (opField w).toNat ≠ 0xE ∧ (opField w).toNat ≠ 0xF) ∧
        w &&& reservedMask W (opField w).toNat = 0 := by
  have hop (c : BitVec 4) : opField w = c ↔ (opField w).toNat = c.toNat := BitVec.toNat_eq
  rw [reservedWord, hop, hop, hop, not_or, not_or, not_or, not_not, and_assoc, and_assoc]
  rfl

/-- The words that decode to a command are those with no reserved opcode and no reserved bit set (30_encoding.md R64, R65):
for each opcode the decoder's check says of the fields what the opcode's mask says of the word. -/
theorem decode_eq_command_iff (W : Width) (w : CmdWord) :
    (∃ i, decode W w = .command i) ↔ ¬ reservedWord W w := by
  rw [not_reservedWord_iff]
  have hop : (opField w).toNat < 16 := (opField w).isLt
  simp only [decode]
  generalize (opField w).toNat = op at hop ⊢
  split
  case h_14 =>
    have hreserved : ¬ (op ≠ 0x0 ∧ op ≠ 0xE ∧ op ≠ 0xF) := by grind
    simp [hreserved]
  all_goals
    rw [accept_eq_command_iff, and_iff_right (by decide)]
    simp only [reservedMask, and_packWord_eq_zero_iff, and_bitsFrom_eq_zero_iff, toNat_lt_two_pow_zero_iff,
      BitVec.ofNat_eq_ofNat, BitVec.and_zero, BitVec.and_allOnes, fitsWidth, Bool.and_eq_true, beq_iff_eq,
      decide_eq_true_eq, and_true, and_assoc]

/-- A word that is no command runs to `ILLEGAL_CMD` and nothing else (60_exceptions.md R172). -/
theorem runWord_of_reservedWord {w : CmdWord} {s : State} (h : reservedWord s.params.width w) :
    runWord w s = .next (s.responded (faultResponse .illegalCmd 0)) := by
  rw [runWord]
  split
  next i hi => exact absurd h ((decode_eq_command_iff _ _).1 ⟨i, hi⟩)
  next => rfl

/-- A core that waits for no answer takes the command word the host presents and runs it (30_encoding.md R60). -/
theorem step_of_command {s : State} {w : CmdWord} {rest : List HostEvent} (hhost : s.host = .command w :: rest)
    (hwaiting : s.waiting = none) : step s = runWord w { s with host := rest } := by
  rw [step, fetch, hhost, hwaiting]

/-- Settles O3: a step runs the word, a reserved word runs to `ILLEGAL_CMD`, and the decoder takes every other word. -/
theorem reservedWordsAreIllegal : Obligations.ReservedWordsAreIllegal := by
  intro s w rest hhost hwaiting
  refine ⟨fun hreserved => ?_, (decode_eq_command_iff s.params.width w).2⟩
  rw [step_of_command hhost hwaiting]
  exact runWord_of_reservedWord hreserved

end Sys2Proof.Machine
end

section
/-! PROOFS. The clean faults (60_exceptions.md R172 to R175, R177 to R179): each command makes the checks of the table
`cleanFault` in the table's order, so the fault the table names is the response, and nothing else changes. -/

namespace Sys2Proof.Machine

/-! ### the model's checks and the table's -/

theorem not_sizeFits8_iff (size : Size) : (!sizeFits8 size) = true ↔ 8 < size.toNat := by
  simp [sizeFits8]

theorem not_sizeFits32_iff (size : Size) : (!sizeFits32 size) = true ↔ 32 < size.toNat := by
  simp [sizeFits32]

theorem fitsWidth_iff (W : Width) (x : Data) : fitsWidth W x = true ↔ x.toNat < 2 ^ W.bits := by
  rw [fitsWidth, decide_eq_true_iff]

/-- `value + u >= 2^(k+1)` is `value >= n` (60_exceptions.md R178). -/
theorem valueTooLarge_iff (k u value : Nat) : valueTooLarge k u value = true ↔ boundOf k u ≤ value := by
  rw [valueTooLarge, decide_eq_true_iff, boundOf, Nat.sub_le_iff_le_add]

/-- One check of a command beside the check of the table: where it applies both name the same fault, and where it does not
both go on to the checks after it. -/
theorem refused_by_check {c d : Prop} [Decidable c] [Decidable d] {fault st : Status} {checks : Option Status} {s : State}
    {o : Host.Outcome State Fault Refusal} (hcheck : d ↔ c) (hrest : checks = some st → o = .next (raiseFault st 0 s))
    (h : (if c then some fault else checks) = some st) :
    (if d then .next (raiseFault fault 0 s) else o) = .next (raiseFault st 0 s) := by
  by_cases hc : c
  · rw [if_pos hc, Option.some_inj] at h
    rw [if_pos (hcheck.2 hc), h]
  · rw [if_neg hc] at h
    rw [if_neg (mt hcheck.1 hc), hrest h]

/-- Where the table has no check left it names no fault. -/
theorem no_check_left {st : Status} {s : State} {o : Host.Outcome State Fault Refusal} (h : none = some st) :
    o = .next (raiseFault st 0 s) := nomatch h

/-! ### the command meets the fault the table names -/

/-- A command that meets a clean fault responds with it, and nothing else happens (60_exceptions.md R179, R180). -/
theorem exec_of_cleanFault {i : Instr} {s : State} {st : Status} (h : cleanFault i s = some st) :
    exec i s = .next (s.responded (faultResponse st 0)) := by
  rw [← raiseFault_eq]
  cases i with
  | bwWrite value size => exact refused_by_check .rfl (refused_by_check (not_sizeFits8_iff size) no_check_left) h
  | bwWrite32 value size => exact refused_by_check .rfl (refused_by_check (not_sizeFits32_iff size) no_check_left) h
  | bwClose => exact refused_by_check .rfl no_check_left h
  | brRead size => exact refused_by_check .rfl (refused_by_check (not_sizeFits8_iff size) no_check_left) h
  | brRead32 size => exact refused_by_check .rfl (refused_by_check (not_sizeFits32_iff size) no_check_left) h
  | brClose => exact refused_by_check .rfl no_check_left h
  | tbeDesc n => exact refused_by_check Bool.not_eq_eq_eq_not (refused_by_check .rfl no_check_left) h
  | tbeWrite k u value =>
    exact refused_by_check Bool.not_eq_eq_eq_not (refused_by_check .rfl
      (refused_by_check Bool.not_eq_eq_eq_not (refused_by_check (valueTooLarge_iff _ _ _) no_check_left))) h
  | tbeRead k u =>
    exact refused_by_check Bool.not_eq_eq_eq_not (refused_by_check .rfl
      (refused_by_check Bool.not_eq_eq_eq_not no_check_left)) h
  | chunk size index => exact nomatch h
  | status => exact nomatch h
  | bwInit => exact nomatch h
  | brInit => exact nomatch h

/-! ### the faulted unit -/

/-- The gate of the writer's commands (60_exceptions.md R177). -/
theorem cleanFault_of_writer_faulted {i : Instr} {s : State} (hwf : i.wellFormed s.params.width = true)
    (hi : runsOnWriter i = true) (hinit : i ≠ .bwInit) (herr : s.bw.err = true) :
    cleanFault i s = some .unitFaulted := by
  rw [cleanFault.eq_def, if_neg (by simp [hwf])]
  cases i with
  | bwWrite | bwWrite32 | bwClose | tbeWrite => exact if_pos herr
  | bwInit => exact absurd rfl hinit
  | brRead | brRead32 | brClose | tbeDesc | tbeRead | chunk | status | brInit => exact absurd hi Bool.false_ne_true

/-- The gate of the reader's commands (60_exceptions.md R177). -/
theorem cleanFault_of_reader_faulted {i : Instr} {s : State} (hwf : i.wellFormed s.params.width = true)
    (hi : runsOnReader i = true) (hinit : i ≠ .brInit) (herr : s.br.err = true) :
    cleanFault i s = some .unitFaulted := by
  rw [cleanFault.eq_def, if_neg (by simp [hwf])]
  cases i with
  | brRead | brRead32 | brClose | tbeRead => exact if_pos herr
  | brInit => exact absurd rfl hinit
  | bwWrite | bwWrite32 | bwClose | tbeDesc | tbeWrite | chunk | status | bwInit => exact absurd hi Bool.false_ne_true

/-- Settles O17: the unit's flag is the first check after the reserved bits, for each of the unit's commands but its INIT. -/
theorem faultedUnitRefuses : Obligations.FaultedUnitRefuses := by
  rintro i s hwf (⟨hi, hinit, herr⟩ | ⟨hi, hinit, herr⟩)
  · exact exec_of_cleanFault (cleanFault_of_writer_faulted hwf hi hinit herr)
  · exact exec_of_cleanFault (cleanFault_of_reader_faulted hwf hi hinit herr)

/-! ### the operands out of range -/

/-- Settles O20: on an unfaulted unit the size is the first check that applies; CHUNK has no check and answers either way. -/
theorem sizeOutOfRangeIsRefused : Obligations.SizeOutOfRangeIsRefused := by
  intro size s
  refine ⟨fun hsize herr value => exec_of_cleanFault ?bwWrite, fun hsize herr value => exec_of_cleanFault ?bwWrite32,
    fun hsize herr => exec_of_cleanFault ?brRead, fun hsize herr => exec_of_cleanFault ?brRead32, fun index => ?chunk⟩
  case bwWrite | bwWrite32 | brRead | brRead32 =>
    simp [cleanFault, Instr.wellFormed, herr, Nat.lt_of_succ_le hsize]
  case chunk =>
    rw [show exec (.chunk size index) s = execChunk size index s from rfl, execChunk]
    split <;> exact ⟨_, rfl⟩

/-- The three ways a pair is no valid descriptor (60_exceptions.md R174). -/
theorem validDescriptor_eq_false_iff (W : Width) (k u : Nat) :
    validDescriptor W k u = false ↔ k > W.bits - 1 ∨ u = 0 ∨ u > 2 ^ k := by
  rw [← Bool.not_eq_true, validDescriptor_iff]
  omega

/-- Settles O21: on an unfaulted unit the descriptor is the first check that applies to operands that fit the width. -/
theorem badDescriptorIsRefused : Obligations.BadDescriptorIsRefused := by
  intro k u s hu hbad
  have hfits := (fitsWidth_iff s.params.width u).2 hu
  have hdesc := (validDescriptor_eq_false_iff s.params.width k.toNat u.toNat).2 hbad
  refine ⟨fun herr value hvalue => exec_of_cleanFault ?tbeWrite, fun herr => exec_of_cleanFault ?tbeRead⟩
  case tbeWrite =>
    simp [cleanFault, Instr.wellFormed, hfits, (fitsWidth_iff s.params.width value).2 hvalue, herr, hdesc]
  case tbeRead => simp [cleanFault, Instr.wellFormed, hfits, herr, hdesc]

/-- Settles O22: the bound 0 fits every width. -/
theorem boundZeroIsRefused : Obligations.BoundZeroIsRefused :=
  fun s => exec_tbeDesc_of_zero rfl s

/-- Settles O23: with a valid descriptor on an unfaulted unit the range of the value is the first check that applies. -/
theorem valueOutOfRangeIsRefused : Obligations.ValueOutOfRangeIsRefused := by
  intro k u value s hu hvalue herr hk hpos hle hrange
  have hfitsU := (fitsWidth_iff s.params.width u).2 hu
  have hfitsValue := (fitsWidth_iff s.params.width value).2 hvalue
  have hdesc := (validDescriptor_iff s.params.width k.toNat u.toNat).2 ⟨hk, hpos, hle⟩
  have hbound : boundOf k.toNat u.toNat ≤ value.toNat := hrange
  exact exec_of_cleanFault (by simp [cleanFault, Instr.wellFormed, hfitsU, hfitsValue, herr, hdesc, hbound])

end Sys2Proof.Machine
end

section
/-! PROOFS. The zero-bit commands (70_reset_and_hazards.md R213): a codeword of the one-value alphabet `k = 0`, `u = 1` and a
write or read of size 0 have no chunk, so no transfer is made and the environment is never asked. -/

namespace Sys2Proof.Machine

/-- The zero-bit commands of the writer unit. -/
def IsZeroBitWrite (i : Instr) : Prop := i = .tbeWrite 0 1 0 ∨ (∃ v, i = .bwWrite v 0) ∨ ∃ v, i = .bwWrite32 v 0

/-- The zero-bit commands of the reader unit. -/
def IsZeroBitRead (i : Instr) : Prop := i = .tbeRead 0 1 ∨ i = .brRead 0 ∨ i = .brRead32 0

/-! ### the procedures on no bits -/

theorem writeBits_size_zero (v : Nat) (s : State) : writeBits v 0 s = .ok () s := by
  rw [writeBits, chunks_zero, writeChunks]

theorem readBits_size_zero (s : State) : readBits 0 s = .ok 0 s := by
  rw [readBits, chunks_zero, readChunks]

/-- The one value of the alphabet has the short codeword of no bits (43_tbe.md R142). -/
theorem writeCodeword_zero_one_zero (s : State) : writeCodeword 0 1 0 s = .ok () s := by
  rw [writeCodeword, if_pos Nat.one_pos, writeBits_size_zero]

/-- No bit is read to know the one value of the alphabet (43_tbe.md R146). -/
theorem readCodeword_zero_one (s : State) : readCodeword 0 1 s = .ok 0 s := by
  rw [readCodeword, readBits_size_zero, bind_ok, if_pos Nat.one_pos]

/-- `k = 0`, `u = 1` is the descriptor of the bound 1 at every width (43_tbe.md R138). -/
theorem validDescriptor_zero_one (W : Width) : validDescriptor W 0 1 = true :=
  (validDescriptor_iff W 0 1).2 ⟨Nat.zero_le _, le_rfl, le_rfl⟩

/-! ### one command -/

theorem exec_zeroBitWrite {i : Instr} {s : State} (hi : IsZeroBitWrite i) (herr : s.bw.err = false) :
    exec i s = .next (s.responded (okResponse 0 0)) := by
  rcases hi with rfl | ⟨v, rfl⟩ | ⟨v, rfl⟩
  case inl =>
    have hexec := exec_tbeWrite 0 1 0 s herr (validDescriptor_zero_one _) (by decide)
    exact hexec.trans (congrArg (finish · _) (writeCodeword_zero_one_zero s))
  case inr.inl =>
    exact (exec_bwWrite v 0 s herr (by decide)).trans (congrArg (finish · _) (writeBits_size_zero _ s))
  case inr.inr =>
    exact (exec_bwWrite32 v 0 s herr (by decide)).trans (congrArg (finish · _) (writeBits_size_zero _ s))

theorem exec_zeroBitRead {i : Instr} {s : State} (hi : IsZeroBitRead i) (herr : s.br.err = false) :
    exec i s = .next (s.responded (okResponse 0 0)) := by
  rcases hi with rfl | rfl | rfl
  case inl =>
    have hexec := exec_tbeRead 0 1 s herr (validDescriptor_zero_one _)
    exact hexec.trans (congrArg (finish · _) (readCodeword_zero_one s))
  case inr.inl => exact (exec_brRead 0 s herr (by decide)).trans (congrArg (finish · _) (readBits_size_zero s))
  case inr.inr => exact (exec_brRead32 0 s herr (by decide)).trans (congrArg (finish · _) (readBits_size_zero s))

/-! ### on a faulted unit -/

theorem fitsWidth_one (W : Width) : fitsWidth W 1 = true :=
  (fitsWidth_iff W 1).2 (Nat.one_lt_two_pow (by have := width_le W; omega))

theorem exec_zeroBitWrite_of_faulted {i : Instr} {s : State} (hi : IsZeroBitWrite i) (herr : s.bw.err = true) :
    exec i s = .next (s.responded (faultResponse .unitFaulted 0)) := by
  apply exec_of_cleanFault
  rcases hi with rfl | ⟨v, rfl⟩ | ⟨v, rfl⟩
  case inl =>
    have hzero : fitsWidth s.params.width 0 = true := (fitsWidth_iff _ 0).2 (Nat.two_pow_pos _)
    exact cleanFault_of_writer_faulted (by rw [Instr.wellFormed, fitsWidth_one, hzero]; rfl) rfl nofun herr
  case inr.inl | inr.inr => exact cleanFault_of_writer_faulted rfl rfl nofun herr

theorem exec_zeroBitRead_of_faulted {i : Instr} {s : State} (hi : IsZeroBitRead i) (herr : s.br.err = true) :
    exec i s = .next (s.responded (faultResponse .unitFaulted 0)) := by
  apply exec_of_cleanFault
  rcases hi with rfl | rfl | rfl
  case inl => exact cleanFault_of_reader_faulted (fitsWidth_one s.params.width) rfl nofun herr
  case inr.inl | inr.inr => exact cleanFault_of_reader_faulted rfl rfl nofun herr

/-! ### any number of commands -/

theorem execAll_cons_of_next {i : Instr} {s t : State} (is : List Instr) (h : exec i s = .next t) :
    execAll (i :: is) s = execAll is t := by
  rw [execAll, h]

/-- A response touches no unit, so the next zero-bit command finds both units unfaulted again. -/
theorem execAll_zeroBit {is : List Instr} {s : State} (hbw : s.bw.err = false) (hbr : s.br.err = false)
    (his : ∀ i ∈ is, IsZeroBitWrite i ∨ IsZeroBitRead i) :
    execAll is s = .next { s with responses := s.responses ++ List.replicate is.length (okResponse 0 0) } := by
  induction is generalizing s with
  | nil => rw [execAll, List.length_nil, List.replicate_zero, List.append_nil]
  | cons i is ih =>
    obtain ⟨hi, hrest⟩ := List.forall_mem_cons.1 his
    have hexec : exec i s = .next (s.responded (okResponse 0 0)) :=
      hi.elim (exec_zeroBitWrite · hbw) (exec_zeroBitRead · hbr)
    rw [execAll_cons_of_next is hexec, ih (s := s.responded (okResponse 0 0)) hbw hbr hrest, List.length_cons,
      List.replicate_succ, List.append_cons]
    rfl

/-- Settles O51: each zero-bit command answers `OK` and nothing else happens, or the unit's flag refuses it; a list of them
answers one by one. -/
theorem zeroBitCommandsLeaveNoTrace : Obligations.ZeroBitCommandsLeaveNoTrace := by
  refine fun s => ⟨fun i hi => ⟨exec_zeroBitWrite hi, exec_zeroBitWrite_of_faulted hi⟩,
    fun i hi => ⟨exec_zeroBitRead hi, exec_zeroBitRead_of_faulted hi⟩, fun hbw hbr is his => ?_⟩
  refine execAll_zeroBit hbw hbr fun i hi => ?_
  simpa only [IsZeroBitWrite, IsZeroBitRead, or_assoc] using his i hi

end Sys2Proof.Machine
end

section
/-! PROOFS. Decode and encode are inverse to each other between the well-formed commands and the words that are commands
(30_encoding.md R69): the four fields of a word are read back from the word they make, and each opcode's check says that the
word is the one its command is encoded to. -/

namespace Sys2Proof.Machine

open Laws.OpcodeField (opField_packWord)

/-! ### the fields of four fields put together -/

@[simp] theorem szField_packWord (op : BitVec 4) (sz : Size) (a b : Data) : szField (packWord op sz a b) = sz := by
  rw [szField, packWord, BitVec.extractLsb'_append_eq_of_le le_rfl]
  exact BitVec.extractLsb'_append_eq_right

@[simp] theorem aField_packWord (op : BitVec 4) (sz : Size) (a b : Data) : aField (packWord op sz a b) = a := by
  rw [aField, packWord, BitVec.extractLsb'_append_eq_of_le (by decide), BitVec.extractLsb'_append_eq_of_le le_rfl]
  exact BitVec.extractLsb'_append_eq_right

@[simp] theorem bField_packWord (op : BitVec 4) (sz : Size) (a b : Data) : bField (packWord op sz a b) = b := by
  rw [bField, packWord, BitVec.extractLsb'_append_eq_of_le (by decide), BitVec.extractLsb'_append_eq_of_le (by decide)]
  exact BitVec.extractLsb'_append_eq_left

/-! ### operands narrower than their field -/

/-- An operand put into a wider field leaves the field's upper bits zero. -/
theorem setWidth_toNat_lt {n : Nat} (x : BitVec n) (hn : n ≤ 64) : (x.setWidth 64).toNat < 2 ^ n := by
  rw [BitVec.toNat_setWidth_of_le hn]
  exact x.isLt

/-- A field whose upper bits are zero is its operand put back. -/
theorem setWidth_setWidth_of_lt {n : Nat} {a : Data} (hn : n ≤ 64) (h : a.toNat < 2 ^ n) :
    (a.setWidth n).setWidth 64 = a := by
  apply BitVec.eq_of_toNat_eq
  rw [BitVec.toNat_setWidth_of_le hn, BitVec.toNat_setWidth, Nat.mod_eq_of_lt h]

/-! ### decode and encode -/

theorem accept_eq_command {reservedZero : Bool} {i j : Instr} :
    accept reservedZero i = .command j ↔ reservedZero = true ∧ i = j := by
  cases reservedZero <;> simp [accept]

/-- Settles O1: each field of the command's word is the operand it was made of, so every reserved bit is zero. -/
theorem decodeOfEncodeIsTheCommand : Obligations.DecodeOfEncodeIsTheCommand := by
  intro W i hwf
  cases i with
  | bwWrite value size | chunk size value =>
    simpa [encode, decode, opField_packWord, accept_eq_command] using setWidth_toNat_lt value (by decide)
  | bwWrite32 value size =>
    simpa [encode, decode, opField_packWord, accept_eq_command] using setWidth_toNat_lt value (by decide)
  | tbeDesc | tbeRead | tbeWrite =>
    simpa [encode, decode, opField_packWord, accept_eq_command, Instr.wellFormed] using hwf
  | bwClose | brRead | brRead32 | brClose | status | bwInit | brInit =>
    simp [encode, decode, opField_packWord, accept_eq_command]

/-- A word whose fields are the ones of a command's word is that word. -/
theorem packWord_eq_of_fields {w : CmdWord} {op : Nat} {sz : Size} {a b : Data} (hop : (opField w).toNat = op)
    (hsz : szField w = sz) (ha : aField w = a) (hb : bField w = b) : packWord (BitVec.ofNat 4 op) sz a b = w := by
  rw [← packWord_fields w, hsz, ha, hb, ← hop, BitVec.ofNat_toNat, BitVec.setWidth_eq]

/-- Settles O2: the opcode's check, passed, says every field of the word is the one the command is encoded with. -/
theorem decodedCommandEncodesToItsWord : Obligations.DecodedCommandEncodesToItsWord := by
  intro W w i h
  simp only [decode] at h
  split at h
  case h_14 => exact nomatch h
  all_goals
    rename_i hop
    obtain ⟨hzero, rfl⟩ := accept_eq_command.1 h
    simp only [Bool.and_eq_true, beq_iff_eq, decide_eq_true_eq, and_assoc] at hzero
  case h_1 | h_2 | h_10 =>
    obtain ⟨hb, ha⟩ := hzero
    exact ⟨rfl, packWord_eq_of_fields hop rfl (setWidth_setWidth_of_lt (by decide) ha).symm hb⟩
  case h_3 | h_6 | h_11 | h_12 | h_13 =>
    obtain ⟨hb, ha, hsz⟩ := hzero
    exact ⟨rfl, packWord_eq_of_fields hop hsz ha hb⟩
  case h_4 | h_5 =>
    obtain ⟨hb, ha⟩ := hzero
    exact ⟨rfl, packWord_eq_of_fields hop rfl ha hb⟩
  case h_7 =>
    obtain ⟨hb, hn, hsz⟩ := hzero
    exact ⟨hn, packWord_eq_of_fields hop hsz rfl hb⟩
  case h_8 =>
    obtain ⟨hu, hvalue⟩ := hzero
    exact ⟨by rw [Instr.wellFormed, hu, hvalue]; rfl, packWord_eq_of_fields hop rfl rfl rfl⟩
  case h_9 =>
    obtain ⟨hu, ha⟩ := hzero
    exact ⟨hu, packWord_eq_of_fields hop rfl ha rfl⟩

/-- Settles O4: the decoder is run on each of the five words. -/
theorem sampleWordsDecode : Obligations.SampleWordsDecode :=
  ⟨by decide, by decide, by decide, by decide, by decide⟩

end Sys2Proof.Machine
end

section
/-! PROOFS. What every command and every step keeps: the parameters, the histories and the invariant (10_state.md R22, R26;
20_memory.md section 4; 30_encoding.md R66), proved of the effects of a command and of a step. -/

namespace Sys2Proof.Machine

/-! ### a command word -/

/-- The next state of a command word has one of the effects of a command: a word that is no command is refused. -/
theorem runWord_effect {w : CmdWord} {s t : State} (h : runWord w s = .next t) : ∃ i, Effect i s t := by
  rcases runWord_cases w s with ⟨i, t', -, e, heffect⟩ | e <;> rw [e] at h <;> cases h
  · exact ⟨i, heffect⟩
  · exact ⟨.status, .refused .illegalCmd (by decide)⟩

/-! ### the histories -/

/-- What no command and no step takes back: the parameters, accepted bytes, delivered bytes, responses. -/
def State.Extends (s t : State) : Prop :=
  t.params = s.params ∧ s.snk <+: t.snk ∧ s.spos ≤ t.spos ∧ s.responses <+: t.responses

theorem State.extends_refl (s : State) : s.Extends s :=
  ⟨rfl, List.prefix_rfl, le_rfl, List.prefix_rfl⟩

/-- No command takes back a byte or a response (20_memory.md R51, R54). -/
theorem effect_extends {i : Instr} {s t : State} (h : Effect i s t) : s.Extends t := by
  have hlog (r : Response) : s.responses <+: s.responses ++ [r] := List.prefix_append _ _
  have hsnk (bytes : List Byte) : s.snk <+: s.snk ++ bytes := List.prefix_append _ _
  cases h with
  | refused | answered | closeFailed | writerNew | readerNew => exact ⟨rfl, List.prefix_rfl, le_rfl, hlog _⟩
  | wrote | writeFailed | closed => exact ⟨rfl, hsnk _, le_rfl, hlog _⟩
  | writeHangs => exact ⟨rfl, hsnk _, le_rfl, List.prefix_rfl⟩
  | closeHangs => exact ⟨rfl, List.prefix_rfl, le_rfl, List.prefix_rfl⟩
  | read | readFailed => exact ⟨rfl, List.prefix_rfl, Nat.le_add_right _ _, hlog _⟩
  | readHangs => exact ⟨rfl, List.prefix_rfl, Nat.le_add_right _ _, List.prefix_rfl⟩

/-- Settles O12: reset and waiting touch no history, a command extends them, and a cut command keeps its transfers and gives
no response. -/
theorem stepOnlyExtendsHistories : Obligations.StepOnlyExtendsHistories := by
  intro s t h
  cases step_cases s t h with
  | reset | idle => exact s.extends_refl
  | word w rest t _ _ hrun =>
    obtain ⟨i, heffect⟩ := runWord_effect hrun
    have hextends := effect_extends heffect
    exact hextends
  | cut w rest t _ _ hrun =>
    obtain ⟨i, heffect⟩ := runWord_effect hrun
    obtain ⟨hparams, hsnk, hspos, -⟩ := effect_extends heffect
    exact ⟨hparams, hsnk, hspos, List.prefix_rfl⟩

/-! ### the invariant of a unit -/

theorem fresh_ok : UnitRegs.fresh.ok := fun _ => by decide

/-- The data registers of a faulted unit are free (10_state.md R23, R27). -/
theorem failed_ok (draw : Nat) : (UnitRegs.failed draw).ok := fun h => absurd h (by simp)

/-- Bits put above a number that fits below them make a number that fits with them. -/
theorem or_shiftLeft_lt {x y a b : Nat} (hx : x < 2 ^ a) (hy : y < 2 ^ b) : x ||| y <<< a < 2 ^ (a + b) := by
  refine or_lt_two_pow (hx.trans_le (Nat.pow_le_pow_right (by decide) (Nat.le_add_right a b))) ?_
  rw [Nat.add_comm a b]
  exact shiftLeft_lt hy

/-- The pending bits and the written ones above them are as many bits as their counts say (10_state.md R22). -/
theorem pendingWith_lt_of_lt {s : State} (hs : s.bw.buf.toNat < 2 ^ s.bw.pend.toNat) (v size : Nat) :
    pendingWith v size s < 2 ^ (s.bw.pend.toNat + size) :=
  or_shiftLeft_lt hs (Nat.mod_lt v (Nat.two_pow_pos size))

/-- The unconsumed bits and the bytes fetched above them are as many bits as their counts say (10_state.md R26). -/
theorem comingBits_lt_of_lt {s : State} (hs : s.br.buf.toNat < 2 ^ s.br.pend.toNat) (bs : List Byte) :
    comingBits bs s < 2 ^ (s.br.pend.toNat + 8 * bs.length) :=
  or_shiftLeft_lt hs (bytesNum_lt bs)

/-- The buffer after a write holds the bits above the bytes it handed over. -/
theorem wrote_buf (s : State) (v size : Nat) :
    (s.wrote v size).bw.buf.toNat = pendingWith v size s >>> (8 * putCount size s) := by
  have hlt := pendingWith_lt v size s
  rw [Nat.add_comm] at hlt
  exact Nat.mod_eq_of_lt (shiftRight_lt (n := 8) hlt)

theorem wrote_ok {s : State} (hs : s.bw.ok) (v size : Nat) : (s.wrote v size).bw.ok := by
  intro herr
  rw [wrote_buf, wrote_pend]
  apply shiftRight_lt
  have hsum : (s.bw.pend.toNat + size) % 8 + 8 * putCount size s = s.bw.pend.toNat + size := Nat.mod_add_div _ 8
  rw [hsum]
  exact pendingWith_lt_of_lt (hs herr) v size

theorem hasRead_ok {s : State} (hs : s.br.ok) {bs : List Byte} {size : Nat} (h : bs.length = getCount size s) :
    (s.hasRead bs size).br.ok := by
  intro herr
  rw [hasRead_buf s bs size h, hasRead_pend s bs size h]
  apply shiftRight_lt
  have hle := getCount_le s size
  rw [← h] at hle
  rw [Nat.sub_add_cancel hle]
  exact comingBits_lt_of_lt (hs herr) bs

/-! ### the invariant of the environment and of the responses -/

theorem Sink.wf_advance {iw : Nat} {k : Sink} (h : k.wf iw) : k.advance.wf iw :=
  ⟨fun a ha => h.1 a (List.mem_of_mem_tail ha), h.2⟩

theorem Sink.wf_skip {iw : Nat} {k : Sink} (h : k.wf iw) (n : Nat) : (k.skip n).wf iw := by
  induction n generalizing k with
  | zero => exact h
  | succ n ih => exact ih (Sink.wf_advance h)

theorem Source.wf_advance {iw : Nat} {k : Source} (h : k.wf iw) : k.advance.wf iw :=
  ⟨fun a ha => h.1 a (List.mem_of_mem_tail ha), h.2⟩

theorem Source.wf_skip {iw : Nat} {k : Source} (h : k.wf iw) (n : Nat) : (k.skip n).wf iw := by
  induction n generalizing k with
  | zero => exact h
  | succ n ih => exact ih (Source.wf_advance h)

/-- What holds of a list's elements and of the standing answer after them holds of the coming answer. -/
theorem headD_of_forall {α : Type} {p : α → Prop} {l : List α} {rest : α} (hl : ∀ a ∈ l, p a) (hrest : p rest) :
    p (l.headD rest) := by
  cases l with
  | nil => exact hrest
  | cons a l => exact hl a List.mem_cons_self

/-- The failure information of the sink's answers has `IW` bits (00_scope.md R7). -/
theorem Sink.info_lt {iw info : Nat} {k : Sink} (h : k.wf iw) (hf : k.answer = .fail info) : info < 2 ^ iw := by
  have hanswer : k.answer.wf iw := headD_of_forall h.1 h.2
  rwa [hf] at hanswer

/-- The failure information of the source's answers has `IW` bits (00_scope.md R7). -/
theorem Source.info_lt {iw info : Nat} {k : Source} (h : k.wf iw) (hf : k.answer = .fail info) : info < 2 ^ iw := by
  have hanswer : k.answer.wf iw := headD_of_forall h.1 h.2
  rwa [hf] at hanswer

theorem okResponse_wf (iw : Nat) (rk : BitVec 8) (data : Data) : (okResponse rk data).wf iw :=
  ⟨fun h => absurd rfl h, fun _ _ => rfl, Nat.two_pow_pos iw⟩

theorem cleanResponse_wf (iw : Nat) (st : Status) : (faultResponse st 0).wf iw :=
  ⟨fun _ => ⟨rfl, rfl⟩, fun _ _ => rfl, Nat.two_pow_pos iw⟩

theorem sinkFailResponse_wf {iw info : Nat} (h : info < 2 ^ iw) : (faultResponse .sinkFail info).wf iw :=
  ⟨fun _ => ⟨rfl, rfl⟩, fun hst => absurd rfl hst, h⟩

theorem sourceFailResponse_wf {iw info : Nat} (h : info < 2 ^ iw) : (faultResponse .sourceFail info).wf iw :=
  ⟨fun _ => ⟨rfl, rfl⟩, fun _ hst => absurd rfl hst, h⟩

/-! ### the invariant of the machine -/

theorem State.inv_responded {s : State} {r : Response} (hs : s.Inv) (hr : r.wf s.params.infoWidth) :
    (s.responded r).Inv := by
  obtain ⟨hbw, hbr, hsink, hsource, hresponses⟩ := hs
  exact ⟨hbw, hbr, hsink, hsource, List.forall_mem_append.2 ⟨hresponses, List.forall_mem_singleton.2 hr⟩⟩

/-- Every command keeps the invariant: a write or read leaves as many bits as it counts, a failure faults the unit and hands
on information of `IW` bits. -/
theorem effect_keeps_inv {i : Instr} {s t : State} (h : Effect i s t) (hs : s.Inv) : t.Inv := by
  have hinv := hs
  obtain ⟨hbw, hbr, hsink, hsource, hresponses⟩ := hs
  cases h with
  | refused st => exact State.inv_responded hinv (cleanResponse_wf _ st)
  | answered rk data => exact State.inv_responded hinv (okResponse_wf _ rk data)
  | wrote v size =>
    exact State.inv_responded ⟨wrote_ok hbw v size, hbr, Sink.wf_skip hsink _, hsource, hresponses⟩ (okResponse_wf _ 0 0)
  | writeFailed v size j info _ _ _ _ _ hf =>
    exact State.inv_responded ⟨failed_ok _, hbr, Sink.wf_skip hsink _, hsource, hresponses⟩
      (sinkFailResponse_wf (Sink.info_lt (Sink.wf_skip hsink j) hf))
  | writeHangs v m => exact ⟨wrote_ok hbw v m, hbr, Sink.wf_skip hsink _, hsource, hresponses⟩
  | closed => exact State.inv_responded ⟨fresh_ok, hbr, Sink.wf_advance hsink, hsource, hresponses⟩ (okResponse_wf _ 0 0)
  | closeFailed info _ _ hf =>
    exact State.inv_responded ⟨failed_ok _, hbr, Sink.wf_advance hsink, hsource, hresponses⟩
      (sinkFailResponse_wf (Sink.info_lt hsink hf))
  | closeHangs => exact ⟨hbw, hbr, Sink.wf_advance hsink, hsource, hresponses⟩
  | writerNew => exact State.inv_responded ⟨fresh_ok, hbr, hsink, hsource, hresponses⟩ (okResponse_wf _ 0 0)
  | read bs size data _ _ _ hb =>
    exact State.inv_responded ⟨hbw, hasRead_ok hbr hb, hsink, Source.wf_skip hsource _, hresponses⟩
      (okResponse_wf _ 0 data)
  | readFailed bs info _ _ _ _ hf =>
    exact State.inv_responded ⟨hbw, failed_ok _, hsink, Source.wf_skip hsource _, hresponses⟩
      (sourceFailResponse_wf (Source.info_lt (Source.wf_skip hsource _) hf))
  | readHangs bs m _ _ hb => exact ⟨hbw, hasRead_ok hbr hb, hsink, Source.wf_skip hsource _, hresponses⟩
  | readerNew => exact State.inv_responded ⟨hbw, fresh_ok, hsink, hsource, hresponses⟩ (okResponse_wf _ 0 0)

/-- Settles O11: hardware reset makes both units new, and a command keeps the invariant, cut or not. -/
theorem stepKeepsGoodStates : Obligations.StepKeepsGoodStates := by
  intro s t hs h
  have hinv := hs
  obtain ⟨-, -, hsink, hsource, hresponses⟩ := hs
  cases step_cases s t h with
  | reset => exact ⟨fresh_ok, fresh_ok, hsink, hsource, hresponses⟩
  | idle => exact hinv
  | word w rest t _ _ hrun =>
    obtain ⟨i, heffect⟩ := runWord_effect hrun
    exact effect_keeps_inv heffect hinv
  | cut w rest t _ _ hrun =>
    obtain ⟨i, heffect⟩ := runWord_effect hrun
    obtain ⟨-, -, hsink', hsource', -⟩ := effect_keeps_inv heffect hinv
    obtain ⟨hparams, -⟩ := effect_extends heffect
    exact ⟨fresh_ok, fresh_ok, hsink', hsource', by simpa [hparams] using hresponses⟩

/-- Settles O10: the units are new, the environment's only information is 1, and no response has been given. -/
theorem resetStateIsGood : Obligations.ResetStateIsGood := by
  have hsink : State.reset.sink.wf State.reset.params.infoWidth := ⟨List.forall_mem_nil _, trivial⟩
  have hsource : State.reset.source.wf State.reset.params.infoWidth :=
    ⟨List.forall_mem_nil _, show 1 < 2 ^ 8 by decide⟩
  exact ⟨fresh_ok, fresh_ok, hsink, hsource, List.forall_mem_nil _⟩

end Sys2Proof.Machine
end

section
/-! PROOFS. How a step goes, event by event, and what one command can leave behind: one response or a wait, a flag that stays
set, no trace of a clean fault (30_encoding.md R60, R66; 60_exceptions.md R180, R187; 70_reset_and_hazards.md R200, R201). -/

namespace Sys2Proof.Machine

/-! ### the step, by the host's next event -/

theorem step_of_reset {s : State} {rest : List HostEvent} (hhost : s.host = .reset :: rest) :
    step s = .next (hwReset { s with host := rest }) := by
  rw [step, fetch, hhost]

theorem step_of_idle {s : State} (hhost : s.host = []) (hwaiting : s.waiting = none) : step s = .next s := by
  rw [step, fetch, hhost, hwaiting]

/-- A core whose command waits for ever takes nothing but hardware reset (60_exceptions.md R187). -/
theorem step_of_waiting {s : State} {p : Port} (hwaiting : s.waiting = some p)
    (hhost : ∀ rest, s.host ≠ .reset :: rest) : step s = .fault (.hang p) := by
  match hevents : s.host with
  | .reset :: rest => exact absurd hevents (hhost rest)
  | [] | .command w :: rest | .abandoned w :: rest => rw [step, fetch, hevents, hwaiting]

theorem step_of_abandoned {s t : State} {w : CmdWord} {rest : List HostEvent} (hhost : s.host = .abandoned w :: rest)
    (hwaiting : s.waiting = none) (hrun : runWord w { s with host := rest } = .next t) :
    step s = .next (abandon { s with host := rest } t) := by
  rw [hwaiting] at hrun
  simp only [step, fetch, hhost, hwaiting, hrun]

/-- Settles O6: with no event and no wait the step is idle; a wait ends with hardware reset alone. -/
theorem coreWithoutCommandWaits : Obligations.CoreWithoutCommandWaits :=
  fun _ => ⟨step_of_idle, fun _ => step_of_waiting⟩

/-- Settles O5: a step runs the word, and the word runs as the command it decodes to. -/
theorem stepRunsTheDecodedCommand : Obligations.StepRunsTheDecodedCommand := by
  intro s w rest i hhost hwaiting hdecode _
  rw [step_of_command hhost hwaiting, runWord, hdecode]

/-- Settles O7: a reset takes its event and makes both units new; the word that an abandoned command runs is the word the
command itself would have run. -/
theorem hardwareResetClearsTheRegisters : Obligations.HardwareResetClearsTheRegisters := by
  intro s rest
  refine ⟨step_of_reset, fun w t hhost hwaiting hstep => ?_⟩
  have hrun : runWord w { s with host := rest } = .next t := by
    rw [← hstep]
    exact (step_of_command (s := { s with host := .command w :: rest }) rfl hwaiting).symm
  have hcut := step_of_abandoned hhost hwaiting hrun
  exact hcut

/-- Settles O15: every command ends in a next state, and of the host's events only a command word, or none, finds the core
stuck. -/
theorem commandsNeverStop : Obligations.CommandsNeverStop := by
  refine ⟨fun i s => (exec_effect i s).imp fun _ h => h.1, fun s => ?_⟩
  cases hwaiting : s.waiting with
  | none =>
    refine .inl ?_
    match hhost : s.host with
    | [] => exact ⟨s, step_of_idle hhost hwaiting⟩
    | .reset :: rest => exact ⟨_, step_of_reset hhost⟩
    | .command w :: rest =>
      rw [step_of_command hhost hwaiting]
      exact runWord_next w _
    | .abandoned w :: rest =>
      obtain ⟨t, hrun⟩ := runWord_next w { s with host := rest }
      exact ⟨_, step_of_abandoned hhost hwaiting hrun⟩
  | some p =>
    by_cases hreset : ∃ rest, s.host = .reset :: rest
    · obtain ⟨rest, hhost⟩ := hreset
      exact .inl ⟨_, step_of_reset hhost⟩
    · exact .inr ⟨p, rfl, step_of_waiting hwaiting fun rest hhost => hreset ⟨rest, hhost⟩⟩

/-! ### the registers at reset -/

/-- Settles O8: at reset both units are new. -/
theorem resetStateHasZeroRegisters : Obligations.ResetStateHasZeroRegisters :=
  ⟨fresh_buf, fresh_pend, fresh_err, fresh_buf, fresh_pend, fresh_err, rfl, rfl⟩

/-- Settles O9: each INIT makes its unit new, as reset does. -/
theorem initPairReachesReset : Obligations.InitPairReachesReset := by
  refine fun s => ⟨_, _, rfl, rfl, ?_⟩
  simp [respond, State.reset, okResponse]

/-! ### the error flags -/

/-- A flag is not set and clear at once. -/
theorem flag_not_set_and_clear {flag : Bool} {p : Prop} (hset : flag = true) (hclear : flag = false) : p :=
  absurd (hset.symm.trans hclear) (by decide)

/-- Of the commands only BW.INIT clears the writer's flag: the others, faulted, are refused (60_exceptions.md R185). -/
theorem writer_flag_cleared {i : Instr} {s t : State} (h : Effect i s t) (hs : s.bw.err = true) (ht : t.bw.err = false) :
    i = .bwInit := by
  cases h with
  | writerNew _ he => exact he.resolve_left (by simp [hs])
  | wrote _ _ _ he | writeFailed _ _ _ _ _ he | writeHangs _ _ _ he => exact flag_not_set_and_clear hs he
  | closed _ he | closeFailed _ _ he | closeHangs _ he => exact flag_not_set_and_clear hs he
  | refused | answered | read | readFailed | readHangs | readerNew => exact flag_not_set_and_clear hs ht

/-- Of the commands only BR.INIT clears the reader's flag: the others, faulted, are refused (60_exceptions.md R185). -/
theorem reader_flag_cleared {i : Instr} {s t : State} (h : Effect i s t) (hs : s.br.err = true) (ht : t.br.err = false) :
    i = .brInit := by
  cases h with
  | readerNew _ he => exact he.resolve_left (by simp [hs])
  | read _ _ _ _ he | readFailed _ _ _ he | readHangs _ _ _ he => exact flag_not_set_and_clear hs he
  | refused | answered | wrote | writeFailed | writeHangs | closed | closeFailed | closeHangs | writerNew =>
    exact flag_not_set_and_clear hs ht

/-- Settles O13: a step that is no reset and cuts no command runs a command, or refuses the word, or changes nothing. -/
theorem errorFlagsAreSticky : Obligations.ErrorFlagsAreSticky := by
  intro s t h
  cases step_cases s t h with
  | reset rest hhost => exact ⟨fun _ _ => .inl ⟨rest, hhost⟩, fun _ _ => .inl ⟨rest, hhost⟩⟩
  | idle => exact ⟨flag_not_set_and_clear, flag_not_set_and_clear⟩
  | cut w rest t hhost => exact ⟨fun _ _ => .inr (.inl ⟨w, rest, hhost⟩), fun _ _ => .inr (.inl ⟨w, rest, hhost⟩)⟩
  | word w rest t hhost _ hrun =>
    rcases runWord_cases w { s with host := rest } with ⟨i, t', hdecode, e, heffect⟩ | e <;> rw [e] at hrun <;>
      cases hrun
    · refine ⟨fun hs ht => .inr (.inr ⟨w, rest, hhost, ?_⟩), fun hs ht => .inr (.inr ⟨w, rest, hhost, ?_⟩)⟩
      · rw [← writer_flag_cleared heffect hs ht]; exact hdecode
      · rw [← reader_flag_cleared heffect hs ht]; exact hdecode
    · exact ⟨flag_not_set_and_clear, flag_not_set_and_clear⟩

/-! ### one response or a wait -/

/-- Settles O16: every effect gives one response, but the three that wait on a silent port. -/
theorem everyCommandGivesOneResponse : Obligations.EveryCommandGivesOneResponse := by
  intro i s t h
  cases exec_cases i s t h with
  | refused | answered | wrote | writeFailed | closed | closeFailed | writerNew | read | readFailed | readerNew =>
    exact .inl ⟨rfl, _, rfl⟩
  | writeHangs v m hi _ _ ha hf => exact .inr (.inl ⟨rfl, rfl, hi, _, ha, hf⟩)
  | closeHangs hi _ ha => exact .inr (.inl ⟨rfl, rfl, by rw [hi]; rfl, 0, trivial, ha⟩)
  | readHangs bs m hi _ _ _ ha hf => exact .inr (.inr ⟨rfl, rfl, hi, bs, ha, hf⟩)

/-! ### clean faults -/

/-- The one response a command has added is the one it gave last. -/
theorem eq_of_append_singleton {α : Type} {l : List α} {x y : α} (h : l ++ [x] = l ++ [y]) : y = x := by
  simpa using h.symm

/-- Settles O18: of the effects only a refusal gives a fault response other than the two I/O faults. -/
theorem cleanFaultsLeaveNoTrace : Obligations.CleanFaultsLeaveNoTrace := by
  intro i s t r h hr hok hsink hsource
  cases exec_cases i s t h with
  | refused st => rw [eq_of_append_singleton hr]
  | answered | wrote | closed | writerNew | read | readerNew => exact absurd (congrArg _ (eq_of_append_singleton hr)) hok
  | writeFailed | closeFailed => exact absurd (congrArg _ (eq_of_append_singleton hr)) hsink
  | readFailed => exact absurd (congrArg _ (eq_of_append_singleton hr)) hsource
  | writeHangs | closeHangs | readHangs => exact nomatch List.self_eq_append_right.1 hr

end Sys2Proof.Machine
end

section
/-! PROOFS. What each writing or reading command does where it completes, and where the sink or the source fails or never
answers it (20_memory.md section 4; 41_bit_writer.md sections 1 to 3; 42_bit_reader.md sections 1 to 3; 43_tbe.md sections 3
and 4; 60_exceptions.md sections 2 and 5). -/

namespace Sys2Proof.Machine

/-! ### the two stream primitives -/

/-- Settles O53: the sink accepts the byte, or fails it and faults the writer. -/
theorem sinkPutHandsOverOneByte : Obligations.SinkPutHandsOverOneByte := by
  refine fun b s => ⟨sinkPut_accept b s, fun info hf => ?_⟩
  have hput := sinkPut_fail b s info hf
  exact ⟨_, hput, rfl, rfl, rfl, rfl, rfl, rfl, by rw [hput]; rfl⟩

/-- The reference oracle delivers its bytes in order and then fails (20_memory.md R43). -/
theorem listed_source_delivers (bytes : List Byte) (info : Nat) :
    let source : Source := { script := bytes.map SourceAnswer.byte, rest := .fail info }
    source.delivers bytes ∧ (source.skip bytes.length).answer = .fail info := by
  induction bytes with
  | nil => exact ⟨trivial, rfl⟩
  | cons b bytes ih => exact ⟨⟨rfl, ih.1⟩, ih.2⟩

/-- Settles O54: the source delivers a byte, or fails and faults the reader; a list of bytes is delivered in order. -/
theorem sourceGetTakesOneByte : Obligations.SourceGetTakesOneByte := by
  refine fun s => ⟨sourceGet_byte s, fun info hf => ?_, fun bytes info hsource => ?_⟩
  · have hget := sourceGet_fail s info hf
    exact ⟨_, hget, rfl, rfl, rfl, rfl, rfl, rfl, by rw [hget]; rfl⟩
  · rw [hsource]
    exact listed_source_delivers bytes info

/-! ### whole writes and reads -/

/-- Settles O29: a size up to 8 is a whole write with at most one transfer. -/
theorem bwWriteCompletes : Obligations.BwWriteCompletes := by
  intro value size s herr hsize haccepts
  rw [exec_bwWrite value size s herr hsize, writeBits_ok _ _ s haccepts]
  rfl

/-- Settles O30: a size up to 32 is a whole write. -/
theorem bwWrite32Completes : Obligations.BwWrite32Completes := by
  intro value size s herr hsize haccepts
  rw [exec_bwWrite32 value size s herr hsize, writeBits_ok _ _ s haccepts]
  rfl

/-- Settles O36: a value below the bound is written as its whole codeword. -/
theorem tbeWriteCompletes : Obligations.TbeWriteCompletes := by
  intro k u value s herr hdesc hvalue haccepts
  have hrange := (desc_fits _ _ _ _ hdesc hvalue).2.2
  rw [exec_tbeWrite k u value s herr hdesc hvalue, writeCodeword_ok _ _ _ s hrange haccepts]
  rfl

/-- Settles O33: a size up to 8 is a whole read with at most one transfer. -/
theorem brReadCompletes : Obligations.BrReadCompletes := by
  intro size bs s herr hsize hlen hdelivers
  rw [exec_brRead size s herr hsize, readBits_ok _ s bs hlen hdelivers]
  rfl

/-- Settles O34: a size up to 32 is a whole read. -/
theorem brRead32Completes : Obligations.BrRead32Completes := by
  intro size bs s herr hsize hlen hdelivers
  rw [exec_brRead32 size s herr hsize, readBits_ok _ s bs hlen hdelivers]
  rfl

/-- Settles O37: the first `k` bits say whether the codeword is short or long. -/
theorem tbeReadCompletes : Obligations.TbeReadCompletes := by
  intro k u bs s herr hdesc hdelivers
  rw [exec_tbeRead k u s herr hdesc]
  refine ⟨fun hlen hshort => ?_, fun hlen hlong => ?_⟩
  · rw [readCodeword_short _ _ s bs hlen hdelivers hshort]
    rfl
  · rw [readCodeword_long _ _ s bs hlen hdelivers (Nat.not_lt.2 hlong), Nat.shiftRight_eq_div_pow]
    rfl

/-! ### BW.CLOSE, BR.CLOSE and INIT -/

/-- BW.CLOSE on an unfaulted unit: the flush, then the empty registers (41_bit_writer.md R98). -/
theorem exec_bwClose {s : State} (herr : s.bw.err = false) :
    exec .bwClose s = finish ((flushWriter s).bind fun _ t => .ok () (setWriter 0 0 t)) fun _ => noResult :=
  if_neg (by simp [writerFaulted, herr])

theorem flushWriter_of_pend_pos {s : State} (h : 0 < s.bw.pend.toNat) : flushWriter s = sinkPut s.bw.buf s := if_pos h

theorem flushWriter_of_pend_zero {s : State} (h : s.bw.pend.toNat = 0) : flushWriter s = .ok () s :=
  if_neg (by omega)

/-- Settles O31: the flush is one transfer or none, and the registers are emptied after it. -/
theorem bwCloseCompletes : Obligations.BwCloseCompletes := by
  intro s herr
  rw [exec_bwClose herr]
  refine ⟨fun hpend haccept => ?_, fun hpend => ?_⟩
  · rw [flushWriter_of_pend_pos hpend, sinkPut_accept _ s haccept]
    simp [setWriter, herr, respond_eq]
  · rw [flushWriter_of_pend_zero hpend]
    simp [setWriter, herr, respond_eq]

/-- Settles O32: the INITs have no check, and BR.CLOSE has the flag's alone. -/
theorem initAndReaderCloseComplete : Obligations.InitAndReaderCloseComplete := by
  refine fun s => ⟨rfl, rfl, fun herr => ?_⟩
  rw [show exec .brClose s = execBrClose s from rfl, execBrClose, if_neg (by simp [readerFaulted, herr])]
  simp [setReader, herr, respond_eq]

/-! ### a transfer that fails -/

/-- Settles O24: the write that the command makes stops at the failing transfer; BW.CLOSE makes one transfer. -/
theorem sinkFailureEndsTheCommand : Obligations.SinkFailureEndsTheCommand := by
  intro s j info herr haccepts hfail
  have hwrite {v size : Nat} (hj : j < putCount size s) :
      writeBits v size s = .raise .sinkFail info (s.wroteInPart v size j) :=
    (writeBits_raise_iff v size s _ _ _).2 ⟨rfl, j, hj, haccepts, hfail, rfl⟩
  refine ⟨fun value size hsize hj => ?bwWrite, fun value size hsize hj => ?bwWrite32,
    fun k u value hdesc hvalue hj => ?tbeWrite, fun hpend hj => ?bwClose⟩
  case bwWrite =>
    rw [exec_bwWrite value size s herr hsize, hwrite hj]
    rfl
  case bwWrite32 =>
    rw [exec_bwWrite32 value size s herr hsize, hwrite hj]
    rfl
  case tbeWrite =>
    have hrange := (desc_fits _ _ _ _ hdesc hvalue).2.2
    obtain ⟨m, hm, hcount, hstop, -⟩ := writeCodeword_stop _ _ _ j s hrange hj haccepts
    rw [exec_tbeWrite k u value s herr hdesc hvalue, hstop info hfail, failWriter_wrote s _ m _ j hm hcount]
    rfl
  case bwClose =>
    subst hj
    rw [exec_bwClose herr, flushWriter_of_pend_pos hpend, sinkPut_fail _ s info hfail]
    rfl

/-- A codeword whose next byte the source does not deliver stops there: in its first `k` bits, or at the one bit more of a
long codeword (43_tbe.md R146). -/
theorem readCodeword_stop {k u : Nat} {s : State} {bs : List Byte} (hdelivers : s.source.delivers bs)
    (hstop : bs.length < getCount k s ∨
      bs.length = getCount k s ∧ bs.length < getCount (k + 1) s ∧ u ≤ comingBits bs s % 2 ^ k) :
    ∃ m, (∀ info, (s.source.skip bs.length).answer = .fail info →
        readCodeword k u s = .raise .sourceFail info (s.readInPart bs.length)) ∧
      ((s.source.skip bs.length).answer = .silent →
        readCodeword k u s = .hang .source { s.hasRead bs m with source := s.source.skip (bs.length + 1) }) := by
  rcases hstop with hlt | ⟨hlen, hlt, hlong⟩
  · obtain ⟨m, -, -, hfail, hsilent⟩ := readBits_stop k s bs hlt hdelivers
    refine ⟨m, fun info hf => ?_, fun hf => ?_⟩
    · rw [readCodeword, hfail info hf, bind_raise, failReader_hasRead]
    · rw [readCodeword, hsilent hf, bind_hang]
  · have hcount := getCount_add s bs k 1 hlen
    have hpend : (s.hasRead bs k).br.pend.toNat < 1 := by
      by_contra h
      rw [getCount_le_eight _ 1 (by decide), if_neg h] at hcount
      omega
    have hskip : (s.source.skip bs.length).advance = s.source.skip (bs.length + 1) := (s.source.skip_add bs.length 1).symm
    refine ⟨k, fun info hf => ?_, fun hf => ?_⟩
    · rw [readCodeword, readBits_ok k s bs hlen hdelivers, bind_ok, if_neg (Nat.not_lt.2 hlong),
        read8_fail 1 (s.hasRead bs k) info hpend hf, bind_raise, ← failReader_hasRead s bs k, ← hskip]
      rfl
    · rw [readCodeword, readBits_ok k s bs hlen hdelivers, bind_ok, if_neg (Nat.not_lt.2 hlong),
        read8_silent 1 (s.hasRead bs k) hpend hf, bind_hang, ← hskip]
      rfl

/-- Settles O25: the read that the command makes stops at the failing request. -/
theorem sourceFailureEndsTheCommand : Obligations.SourceFailureEndsTheCommand := by
  intro s bs info herr hdelivers hfail
  have hread {size : Nat} (hlt : bs.length < getCount size s) :
      readBits size s = .raise .sourceFail info (s.readInPart bs.length) :=
    (readBits_raise_iff size s _ _ _).2 ⟨rfl, bs, hdelivers, hlt, hfail, rfl⟩
  refine ⟨fun size hsize hlt => ?brRead, fun size hsize hlt => ?brRead32, fun k u hdesc hstop => ?tbeRead⟩
  case brRead =>
    rw [exec_brRead size s herr hsize, hread hlt]
    rfl
  case brRead32 =>
    rw [exec_brRead32 size s herr hsize, hread hlt]
    rfl
  case tbeRead =>
    obtain ⟨m, hcodeword, -⟩ := readCodeword_stop hdelivers hstop
    rw [exec_tbeRead k u s herr hdesc, hcodeword info hfail]
    rfl

/-! ### a transfer that is never answered -/

/-- A write that waits on the sink has handed over the bytes before the silent answer (60_exceptions.md R187). -/
theorem suspend_wrote_waitsOnSink {s : State} (herr : s.bw.err = false) (v : Nat) {m size j : Nat} (hm : m ≤ size)
    (hcount : putCount m s = j) :
    s.waitsOnSink v size j (suspend .sink { s.wrote v m with sink := s.sink.skip (j + 1) }) := by
  subst hcount
  refine ⟨herr, ?_⟩
  rw [← streamBytes_prefix s v m size hm]
  rfl

/-- A read that waits on the source has consumed the bytes before the silent answer (60_exceptions.md R187). -/
theorem suspend_hasRead_waitsOnSource {s : State} (herr : s.br.err = false) (bs : List Byte) (m : Nat) :
    s.waitsOnSource bs.length
      (suspend .source { s.hasRead bs m with source := s.source.skip (bs.length + 1) }) :=
  ⟨herr, rfl⟩

/-- Settles O26: the write or read that the command makes stops at the silent answer. -/
theorem unansweredTransferHangs : Obligations.UnansweredTransferHangs := by
  refine fun s => ⟨fun j herr haccepts hsilent => ?writer, fun bs herr hdelivers hsilent => ?reader⟩
  case writer =>
    have hwrite {v size : Nat} (hj : j < putCount size s) :
        ∃ t, finish (writeBits v size s) (fun _ => noResult) = .next t ∧ s.waitsOnSink v size j t := by
      obtain ⟨m, hm, hcount, -, hstop⟩ := writeBits_stop v size j s hj haccepts
      exact ⟨_, by rw [hstop hsilent, finish_hang], suspend_wrote_waitsOnSink herr v hm hcount⟩
    refine ⟨fun value size hsize hj => ?bwWrite, fun value size hsize hj => ?bwWrite32,
      fun k u value hdesc hvalue hj => ?tbeWrite, fun hpend hj => ?bwClose⟩
    case bwWrite =>
      rw [exec_bwWrite value size s herr hsize]
      exact hwrite hj
    case bwWrite32 =>
      rw [exec_bwWrite32 value size s herr hsize]
      exact hwrite hj
    case tbeWrite =>
      have hrange := (desc_fits _ _ _ _ hdesc hvalue).2.2
      obtain ⟨m, hm, hcount, -, hstop⟩ := writeCodeword_stop _ _ _ j s hrange hj haccepts
      refine ⟨_, ?_, suspend_wrote_waitsOnSink herr _ hm hcount⟩
      rw [exec_tbeWrite k u value s herr hdesc hvalue, hstop hsilent, finish_hang]
    case bwClose =>
      subst hj
      rw [exec_bwClose herr, flushWriter_of_pend_pos hpend, sinkPut_silent _ s hsilent]
      rfl
  case reader =>
    have hread {size : Nat} (hlt : bs.length < getCount size s) :
        ∃ t, finish (readBits size s) dataResult = .next t ∧ s.waitsOnSource bs.length t := by
      obtain ⟨m, -, -, -, hstop⟩ := readBits_stop size s bs hlt hdelivers
      exact ⟨_, by rw [hstop hsilent, finish_hang], suspend_hasRead_waitsOnSource herr bs m⟩
    refine ⟨fun size hsize hlt => ?brRead, fun size hsize hlt => ?brRead32, fun k u hdesc hstop => ?tbeRead⟩
    case brRead =>
      rw [exec_brRead size s herr hsize]
      exact hread hlt
    case brRead32 =>
      rw [exec_brRead32 size s herr hsize]
      exact hread hlt
    case tbeRead =>
      obtain ⟨m, -, hcodeword⟩ := readCodeword_stop hdelivers hstop
      refine ⟨_, ?_, suspend_hasRead_waitsOnSource herr bs m⟩
      rw [exec_tbeRead k u s herr hdesc, hcodeword hsilent, finish_hang]

end Sys2Proof.Machine
end

section
/-! PROOFS. What the fields of a response say: the status codes and the layout of the word (30_encoding.md R66, R67), the
registers in the status view (44_system.md R160), the element of the chunk sequence (40_chunk_iterator.md R81, R83), the
descriptor of a bound (43_tbe.md R136, R138). -/

namespace Sys2Proof.Machine

/-! ### fields side by side -/

/-- Two fields side by side are a number: the upper one in units of the lower one's width. -/
theorem toNat_append_eq_add {m n : Nat} (x : BitVec m) (y : BitVec n) :
    (x ++ y).toNat = x.toNat * 2 ^ n + y.toNat := by
  rw [BitVec.toNat_append, ← Nat.shiftLeft_add_eq_or_of_lt y.isLt, Nat.shiftLeft_eq]

/-! ### the response word -/

theorem status_code_lt (st : Status) : st.code < 9 := by
  cases st <;> decide

/-- Settles O28: the codes are the table's, status by status. -/
theorem statusCodesAreTheTable : Obligations.StatusCodesAreTheTable := ⟨rfl, status_code_lt⟩

/-- The four fields of a response fit their places, so the word is their sum (30_encoding.md R66). -/
theorem word_toNat {iw : Nat} {r : Response} (h : r.ioinfo < 2 ^ iw) :
    (r.word iw).toNat = r.status.code + r.rk.toNat * 2 ^ 4 + r.data.toNat * 2 ^ 12 + r.ioinfo * 2 ^ 76 := by
  have hcode := status_code_lt r.status
  have hrk : r.rk.toNat < 2 ^ 8 := r.rk.isLt
  have hdata : r.data.toNat < 2 ^ 64 := r.data.isLt
  rw [Response.word, BitVec.toNat_ofNat]
  simp only [Nat.shiftLeft_eq]
  apply Nat.mod_eq_of_lt
  rw [Nat.pow_add]
  omega

/-- Settles O27: each field is below the weight of the field above it. -/
theorem responseWordLayout : Obligations.ResponseWordLayout := by
  intro iw r h
  have hcode := status_code_lt r.status
  have hrk : r.rk.toNat < 2 ^ 8 := r.rk.isLt
  have hdata : r.data.toNat < 2 ^ 64 := r.data.isLt
  rw [word_toNat h]
  omega

/-! ### STATUS -/

/-- Settles O39: the view puts the six registers side by side. -/
theorem statusShowsTheRegisters : Obligations.StatusShowsTheRegisters := by
  refine fun s => ⟨statusView s, ?_, rfl⟩
  simp only [statusView, unitView, toNat_append_eq_add, BitVec.toNat_ofBool, BitVec.ofNat_eq_ofNat, BitVec.toNat_zero]
  ring

/-! ### CHUNK -/

/-- The sizes below 8, and 8 bits more at a time, are all sizes. -/
theorem eight_step_induction {p : Nat → Prop} (hsmall : ∀ r < 8, p r) (hstep : ∀ n, p n → p (n + 8)) (n : Nat) :
    p n := by
  induction n using Nat.strong_induction_on with
  | _ n ih =>
    by_cases hn : n < 8
    · exact hsmall n hn
    · have hprev := hstep (n - 8) (ih (n - 8) (by omega))
      rwa [Nat.sub_add_cancel (Nat.le_of_not_lt hn)] at hprev

/-- The `i`-th chunk covers the bits from `8 * i` on, as long as there are any (40_chunk_iterator.md R81). -/
theorem chunks_getElem? (size i : Nat) :
    (chunks size)[i]? =
      if 8 * i < size then some { offset := 8 * i, chunkSize := min 8 (size - 8 * i) } else none := by
  induction size using eight_step_induction generalizing i with
  | hsmall r hr =>
    rw [chunks_of_lt_eight hr]
    cases i with
    | zero => by_cases hzero : r = 0 <;> simp [hzero, Nat.pos_of_ne_zero, hr.le]
    | succ i => by_cases hzero : r = 0 <;> simp [hzero, show ¬ 8 * (i + 1) < r by omega]
  | hstep size ih =>
    rw [chunks_add_eight]
    cases i with
    | zero => simp
    | succ i =>
      rw [List.getElem?_cons_succ, List.getElem?_map, ih]
      by_cases hlt : 8 * i < size
      · rw [if_pos hlt, if_pos (by omega), Nat.mul_add, Nat.add_sub_add_right]
        rfl
      · rw [if_neg hlt, if_neg (by omega)]
        rfl

theorem chunks_sum (size : Nat) : ((chunks size).map Chunk.chunkSize).sum = size := by
  induction size using eight_step_induction with
  | hsmall r hr =>
    rw [chunks_of_lt_eight hr]
    by_cases hzero : r = 0 <;> simp [hzero]
  | hstep size ih =>
    simp [chunks_add_eight, Function.comp_def, ih, Nat.add_comm]

theorem chunks_length (size : Nat) : (chunks size).length = (size + 7) / 8 := by
  induction size using eight_step_induction with
  | hsmall r hr =>
    rw [chunks_of_lt_eight hr]
    split
    next hpos => rw [List.length_singleton]; omega
    next hzero => rw [List.length_nil]; omega
  | hstep size ih =>
    rw [chunks_add_eight, List.length_cons, List.length_map, ih]
    omega

/-- Settles O43: by induction, 8 bits of the size at a time. -/
theorem chunksTileTheBits : Obligations.ChunksTileTheBits := by
  refine fun size => ⟨chunks_sum size, chunks_length size, fun i c hc => ?_⟩
  rw [chunks_getElem?] at hc
  split at hc
  next hlt =>
    cases hc
    have hpos : 1 ≤ min 8 (size - 8 * i) := by omega
    exact ⟨rfl, rfl, hpos⟩
  next => exact nomatch hc

/-- The fields of CHUNK's result, which fit their places (30_encoding.md R68). -/
theorem chunkData_toNat {offset chunkSize : Nat} (hoffset : offset < 2 ^ 8) (hsize : chunkSize < 2 ^ 4) :
    (chunkData true chunkSize offset).toNat = offset + chunkSize * 2 ^ 8 + 2 ^ 12 := by
  simp only [chunkData, toNat_append_eq_add, BitVec.toNat_ofBool, BitVec.ofNat_eq_ofNat, BitVec.toNat_ofNat,
    Nat.mod_eq_of_lt hoffset, Nat.mod_eq_of_lt hsize, Bool.toNat_true]
  ring

/-- Settles O38: the index is in the sequence exactly if `8 * index` is below the size. -/
theorem chunkReturnsTheElement : Obligations.ChunkReturnsTheElement := by
  intro size index s
  have hexec : exec (.chunk size index) s = execChunk size index s := rfl
  rw [chunks_getElem?, hexec, execChunk]
  refine ⟨fun c hc => ?_, fun hnone => ?_⟩
  · split at hc
    next hlt =>
      cases hc
      have hsize : size.toNat < 2 ^ 8 := size.isLt
      have hoffset : 8 * index.toNat < 2 ^ 8 := hlt.trans hsize
      have hcount : min 8 (size.toNat - 8 * index.toNat) < 2 ^ 4 := (Nat.min_le_left _ _).trans_lt (by decide)
      exact ⟨_, chunkData_toNat hoffset hcount, if_pos hlt⟩
    next => exact nomatch hc
  · split at hnone
    next => exact nomatch hnone
    next hlt => exact if_neg hlt

/-! ### TBE.DESC and descriptors -/

/-- Settles O35: `k` is the place of the bound's top bit, which a bound of the width has below `W`. -/
theorem tbeDescCompletes : Obligations.TbeDescCompletes := by
  intro n k s hw hlo hhi
  have hpow : 2 ^ (k + 1) = 2 ^ k + 2 ^ k := Nat.two_pow_succ k
  have hk : k < s.params.width.bits := (Nat.pow_lt_pow_iff_right (by decide)).1 (hlo.trans_lt hw)
  exact ⟨exec_tbeDesc_of_bounds hw hlo hhi, by omega, by omega, by omega⟩

/-- Settles O41: a valid pair's bound lies between `2^k` and `2^(k+1)`, which determines its descriptor; a bound's descriptor
is the pair those two powers make. -/
theorem validPairsAreTheDescriptors : Obligations.ValidPairsAreTheDescriptors := by
  refine fun W => ⟨fun k u hvalid => ?pair, fun n hn hW => ?bound⟩
  case pair =>
    obtain ⟨hk, hpos, hle⟩ := (validDescriptor_iff W k u).1 hvalid
    have hpow : 2 ^ (k + 1) = 2 ^ k + 2 ^ k := Nat.two_pow_succ k
    have hbound : boundOf k u = 2 ^ (k + 1) - u := rfl
    have hlo : 2 ^ k ≤ boundOf k u := by omega
    have hhi : boundOf k u < 2 ^ (k + 1) := by omega
    have hwidth : 2 ^ (k + 1) ≤ 2 ^ W.bits := Nat.pow_le_pow_right (by decide) (by have := width_le W; omega)
    have hdescU := descU_eq_of_bounds hlo hhi
    exact ⟨(Nat.two_pow_pos k).trans_le hlo, hhi.trans_le hwidth, floorLog2_eq_of_bounds hlo hhi, by omega⟩
  case bound =>
    obtain ⟨hlo, hhi⟩ := floorLog2_bounds hn
    have hpow : 2 ^ (floorLog2 n + 1) = 2 ^ floorLog2 n + 2 ^ floorLog2 n := Nat.two_pow_succ _
    have hdescU : descU n = 2 ^ (floorLog2 n + 1) - n := rfl
    refine ⟨(validDescriptor_iff W _ _).2 ⟨Nat.le_sub_one_of_lt (floorLog2_lt hn hW), ?_, ?_⟩, ?_⟩
    · omega
    · rw [descK]; omega
    · rw [boundOf, exp2, descK]; omega

end Sys2Proof.Machine
end

section
/-! PROOFS. Writes and reads of bit strings put one after another (41_bit_writer.md R97; 42_bit_reader.md R117), the place of
each written bit in the stream (20_memory.md R45, R46), and the number of transfers of a command (20_memory.md R41). -/

namespace Sys2Proof.Machine

/-! ### procedures that end alike -/

/-- Two procedures end alike: with the same result and state, or both wait for an answer that never comes. -/
def Res.EndsAlike {α : Type} (r r' : Res α) : Prop :=
  r = r' ∨ ∃ p t p' t', r = .hang p t ∧ r' = .hang p' t'

theorem Res.EndsAlike.ok_iff {α : Type} {r r' : Res α} (h : r.EndsAlike r') (a : α) (t : State) :
    r = .ok a t ↔ r' = .ok a t := by
  rcases h with rfl | ⟨p, t, p', t', rfl, rfl⟩
  · rfl
  · simp

theorem Res.EndsAlike.raise_iff {α : Type} {r r' : Res α} (h : r.EndsAlike r') (st : Status) (info : Nat) (t : State) :
    r = .raise st info t ↔ r' = .raise st info t := by
  rcases h with rfl | ⟨p, t, p', t', rfl, rfl⟩
  · rfl
  · simp

/-! ### writing is concatenation -/

theorem writeBits_fail_at {v size j info : Nat} {s : State} (hj : j < putCount size s) (haccepts : s.sink.accepts j)
    (hfail : (s.sink.skip j).answer = .fail info) :
    writeBits v size s = .raise .sinkFail info (s.wroteInPart v size j) :=
  (writeBits_raise_iff v size s _ _ _).2 ⟨rfl, j, hj, haccepts, hfail, rfl⟩

theorem writeBits_silent_at {v size j : Nat} {s : State} (hj : j < putCount size s) (haccepts : s.sink.accepts j)
    (hsilent : (s.sink.skip j).answer = .silent) : ∃ t, writeBits v size s = .hang .sink t := by
  obtain ⟨m, -, -, -, hhang⟩ := writeBits_stop v size j s hj haccepts
  exact ⟨_, hhang hsilent⟩

/-- What a failing write has handed over does not depend on the bits after the failing byte. -/
theorem wroteInPart_add {s : State} {v a j : Nat} (hj : j < putCount a s) (b : Nat) :
    s.wroteInPart v a j = s.wroteInPart v (a + b) j := by
  have hle : 8 * j ≤ s.bw.pend.toNat + a := by simp only [putCount] at hj; omega
  simp only [State.wroteInPart, pendingWith_add v a b s, streamBytes_or_shift_above _ _ _ _ hle]

/-- A write of `a + b` bits ends like the write of `a` bits and then that of `b` bits: all bytes are accepted, or the sink
stops both at the same byte, in the first write or in the second. -/
theorem writeBits_add_endsAlike (v a b : Nat) (s : State) :
    (writeBits v (a + b) s).EndsAlike ((writeBits v a s).bind fun _ u => writeBits (v >>> a) b u) := by
  have hcount := putCount_add s v a b
  rcases Sink.accepts_or_stops (putCount (a + b) s) s.sink with haccepts | ⟨j, hj, haccepts, hstop⟩
  case inl =>
    have hboth := haccepts
    rw [hcount, Sink.accepts_add] at hboth
    rw [writeBits_ok v (a + b) s haccepts, writeBits_ok v a s hboth.1, bind_ok, writeBits_ok _ b _ hboth.2, wrote_wrote]
    exact .inl rfl
  case inr =>
    by_cases hfirst : j < putCount a s
    case pos =>
      rcases hstop with ⟨info, hfail⟩ | hsilent
      · rw [writeBits_fail_at hj haccepts hfail, writeBits_fail_at hfirst haccepts hfail, bind_raise,
          wroteInPart_add hfirst b]
        exact .inl rfl
      · obtain ⟨t, ht⟩ := writeBits_silent_at (v := v) hj haccepts hsilent
        obtain ⟨t', ht'⟩ := writeBits_silent_at (v := v) hfirst haccepts hsilent
        rw [ht, ht', bind_hang]
        exact .inr ⟨_, _, _, _, rfl, rfl⟩
    case neg =>
      obtain ⟨i, rfl⟩ := Nat.exists_eq_add_of_le (Nat.le_of_not_lt hfirst)
      have hboth := haccepts
      rw [Sink.accepts_add] at hboth
      have hi : i < putCount b (s.wrote v a) := by omega
      rw [writeBits_ok v a s hboth.1, bind_ok]
      rcases hstop with ⟨info, hfail⟩ | hsilent
      · have hsecond := hfail
        rw [Sink.skip_add] at hsecond
        rw [writeBits_fail_at hj haccepts hfail, writeBits_fail_at hi hboth.2 hsecond, wrote_wroteInPart]
        exact .inl rfl
      · have hsecond := hsilent
        rw [Sink.skip_add] at hsecond
        obtain ⟨t, ht⟩ := writeBits_silent_at (v := v) hj haccepts hsilent
        obtain ⟨t', ht'⟩ := writeBits_silent_at (v := v >>> a) hi hboth.2 hsecond
        rw [ht, ht']
        exact .inr ⟨_, _, _, _, rfl, rfl⟩

/-- Settles O44: the two ways to write end alike. -/
theorem writingIsConcatenation : Obligations.WritingIsConcatenation := fun v a b s =>
  have halike := writeBits_add_endsAlike v a b s
  ⟨halike.ok_iff (), halike.raise_iff⟩

/-! ### reading is splitting -/

theorem readBits_fail_at {size info : Nat} {bs : List Byte} {s : State} (hlt : bs.length < getCount size s)
    (hdelivers : s.source.delivers bs) (hfail : (s.source.skip bs.length).answer = .fail info) :
    readBits size s = .raise .sourceFail info (s.readInPart bs.length) :=
  (readBits_raise_iff size s _ _ _).2 ⟨rfl, bs, hdelivers, hlt, hfail, rfl⟩

theorem readBits_silent_at {size : Nat} {bs : List Byte} {s : State} (hlt : bs.length < getCount size s)
    (hdelivers : s.source.delivers bs) (hsilent : (s.source.skip bs.length).answer = .silent) :
    ∃ t, readBits size s = .hang .source t := by
  obtain ⟨m, -, -, -, hhang⟩ := readBits_stop size s bs hlt hdelivers
  exact ⟨_, hhang hsilent⟩

/-- A list at least as long as `n` is its first `n` elements and the others. -/
theorem exists_append_of_le_length {α : Type} {l : List α} {n : Nat} (h : n ≤ l.length) :
    ∃ xs ys, l = xs ++ ys ∧ xs.length = n :=
  ⟨l.take n, l.drop n, (List.take_append_drop n l).symm, List.length_take_of_le h⟩

/-- The next `a + b` bits are the next `a` bits and, above them, the `b` bits that come after a read of `a` bits. -/
theorem comingBits_mod_add {s : State} {xs : List Byte} {a : Nat} (hx : xs.length = getCount a s) (ys : List Byte)
    (b : Nat) :
    comingBits (xs ++ ys) s % 2 ^ (a + b) =
      (comingBits xs s % 2 ^ a) ||| ((comingBits ys (s.hasRead xs a) % 2 ^ b) <<< a) := by
  rw [mod_two_pow_add, comingBits_hasRead s xs ys a hx, comingBits_append_mod xs ys s a (hx ▸ getCount_le s a)]

/-- A read of `a + b` bits ends like the read of `a` bits and then that of `b` bits: all bytes are delivered, or the source
stops both at the same byte, in the first read or in the second. -/
theorem readBits_add_endsAlike (a b : Nat) (s : State) :
    (readBits (a + b) s).EndsAlike
      ((readBits a s).bind fun x u => (readBits b u).bind fun y w => .ok (x ||| (y <<< a)) w) := by
  obtain ⟨bs, hdelivers, hend⟩ := Source.delivers_or_stops (getCount (a + b) s) s.source
  by_cases hfirst : bs.length < getCount a s
  case pos =>
    have hlt : bs.length < getCount (a + b) s := hfirst.trans_le (by simp only [getCount]; omega)
    obtain ⟨-, hstop⟩ := hend.resolve_left hlt.ne
    rcases hstop with ⟨info, hfail⟩ | hsilent
    · rw [readBits_fail_at hlt hdelivers hfail, readBits_fail_at hfirst hdelivers hfail, bind_raise]
      exact .inl rfl
    · obtain ⟨t, ht⟩ := readBits_silent_at hlt hdelivers hsilent
      obtain ⟨t', ht'⟩ := readBits_silent_at hfirst hdelivers hsilent
      rw [ht, ht', bind_hang]
      exact .inr ⟨_, _, _, _, rfl, rfl⟩
  case neg =>
    obtain ⟨xs, ys, rfl, hx⟩ := exists_append_of_le_length (Nat.le_of_not_lt hfirst)
    have hboth := hdelivers
    rw [Source.delivers_append] at hboth
    have hcount := getCount_add s xs a b hx
    rw [List.length_append] at hend
    rw [readBits_ok a s xs hx hboth.1, bind_ok]
    rcases hend with hlen | ⟨hlt, hstop⟩
    · have hy : ys.length = getCount b (s.hasRead xs a) := by omega
      have hxy : (xs ++ ys).length = getCount (a + b) s := by rw [List.length_append, hlen]
      rw [readBits_ok (a + b) s (xs ++ ys) hxy hdelivers, readBits_ok b (s.hasRead xs a) ys hy hboth.2, bind_ok,
        comingBits_mod_add hx, hasRead_hasRead s xs ys a b hx]
      exact .inl rfl
    · have hy : ys.length < getCount b (s.hasRead xs a) := by omega
      have hxy : (xs ++ ys).length < getCount (a + b) s := by rwa [List.length_append]
      have hskip : s.source.skip (xs.length + ys.length) = (s.hasRead xs a).source.skip ys.length := Source.skip_add _ _ _
      rcases hstop with ⟨info, hfail⟩ | hsilent
      · rw [readBits_fail_at hxy hdelivers (by rwa [List.length_append]),
          readBits_fail_at hy hboth.2 (hskip ▸ hfail), bind_raise, hasRead_readInPart, List.length_append]
        exact .inl rfl
      · obtain ⟨t, ht⟩ := readBits_silent_at hxy hdelivers (by rwa [List.length_append])
        obtain ⟨t', ht'⟩ := readBits_silent_at hy hboth.2 (hskip ▸ hsilent)
        rw [ht, ht', bind_hang]
        exact .inr ⟨_, _, _, _, rfl, rfl⟩

/-- Settles O45: the two ways to read end alike. -/
theorem readingIsSplitting : Obligations.ReadingIsSplitting := fun a b s =>
  have halike := readBits_add_endsAlike a b s
  ⟨halike.ok_iff, halike.raise_iff⟩

/-! ### the written stream as one number -/

theorem bytesNum_append_eq_add (xs ys : List Byte) :
    bytesNum (xs ++ ys) = bytesNum xs + bytesNum ys * 2 ^ (8 * xs.length) := by
  rw [bytesNum_append, Nat.or_comm, ← Nat.shiftLeft_add_eq_or_of_lt (bytesNum_lt xs), Nat.shiftLeft_eq, Nat.add_comm]

@[simp] theorem streamBytes_length (bits n : Nat) : (streamBytes bits n).length = n := by
  simp [streamBytes]

/-- The first `n` bytes of a bit string are its low `8 * n` bits (20_memory.md R44). -/
theorem bytesNum_streamBytes (bits n : Nat) : bytesNum (streamBytes bits n) = bits % 2 ^ (8 * n) := by
  induction n with
  | zero => rw [Nat.mul_zero, pow_zero, Nat.mod_one]; rfl
  | succ n ih =>
    have hlast : bytesNum (streamBytes (bits >>> (8 * n)) 1) = bits / 2 ^ (8 * n) % 2 ^ 8 := by
      simp [streamBytes, bytesNum, byteAt_toNat, Nat.shiftRight_eq_div_pow]
    rw [streamBytes_add, bytesNum_append_eq_add, ih, streamBytes_length, hlast, Nat.mul_succ, Nat.pow_add, Nat.mod_mul,
      Nat.mul_comm (2 ^ (8 * n))]

/-- The pending bits and the written ones above them, as a sum. -/
theorem pendingWith_eq_add {s : State} (hs : s.bw.buf.toNat < 2 ^ s.bw.pend.toNat) (v size : Nat) :
    pendingWith v size s = s.bw.buf.toNat + v % 2 ^ size * 2 ^ s.bw.pend.toNat := by
  rw [pendingWith, Nat.or_comm, ← Nat.shiftLeft_add_eq_or_of_lt hs, Nat.shiftLeft_eq, Nat.add_comm]

/-- The written stream has no bit beyond its length. -/
theorem streamNum_lt {s : State} (hs : s.bw.buf.toNat < 2 ^ s.bw.pend.toNat) : streamNum s < 2 ^ streamLen s := by
  have hlt := or_shiftLeft_lt (bytesNum_lt s.snk) hs
  rwa [Nat.or_comm, ← Nat.shiftLeft_add_eq_or_of_lt (bytesNum_lt s.snk), Nat.shiftLeft_eq, Nat.add_comm] at hlt

/-- A whole write puts the low `size` bits of the value on top of the stream (41_bit_writer.md R96). -/
theorem wrote_streamNum {s : State} (hs : s.bw.buf.toNat < 2 ^ s.bw.pend.toNat) (v size : Nat) :
    streamNum (s.wrote v size) = streamNum s + v % 2 ^ size * 2 ^ streamLen s := by
  have hsnk : (s.wrote v size).snk = s.snk ++ streamBytes (pendingWith v size s) (putCount size s) := rfl
  have hdiv := Nat.mod_add_div (pendingWith v size s) (2 ^ (8 * putCount size s))
  calc streamNum (s.wrote v size)
      = bytesNum s.snk + (pendingWith v size s % 2 ^ (8 * putCount size s) + 2 ^ (8 * putCount size s) *
          (pendingWith v size s / 2 ^ (8 * putCount size s))) * 2 ^ (8 * s.snk.length) := by
        rw [streamNum, wrote_buf, hsnk, bytesNum_append_eq_add, bytesNum_streamBytes, List.length_append, streamBytes_length,
          Nat.shiftRight_eq_div_pow, Nat.mul_add 8, Nat.pow_add]
        ring
    _ = bytesNum s.snk + (s.bw.buf.toNat + v % 2 ^ size * 2 ^ s.bw.pend.toNat) * 2 ^ (8 * s.snk.length) := by
        rw [hdiv, pendingWith_eq_add hs]
    _ = streamNum s + v % 2 ^ size * 2 ^ streamLen s := by
        rw [streamNum, streamLen, Nat.pow_add]
        ring

/-- Settles O46: the value stands above a stream that has no bit beyond its length. -/
theorem writtenBitsAreStreamBits : Obligations.WrittenBitsAreStreamBits := by
  refine fun v size s hs haccepts => ⟨_, writeBits_ok v size s haccepts, wrote_streamLen s v size, fun j => ?_⟩
  rw [wrote_streamNum hs, Nat.add_comm, Nat.mul_comm, Nat.testBit_two_pow_mul_add _ (streamNum_lt hs),
    Nat.testBit_mod_two_pow]
  split
  next => rfl
  next hj =>
    have hplace : j - streamLen s < size ↔ j < streamLen s + size := by omega
    rw [decide_eq_decide.2 hplace]

/-! ### how many transfers -/

/-- Settles O55: each effect reaches one stream at most, and carries the bound of its transfers. -/
theorem transferCountsAreBounded : Obligations.TransferCountsAreBounded := by
  intro i s t h
  have hnone (n : Nat) : s.spos ≤ s.spos + n := Nat.le_add_right _ _
  cases exec_cases i s t h with
  | refused | answered | closeFailed | closeHangs | writerNew | readerNew =>
    exact ⟨[], (List.append_nil _).symm, Nat.zero_le _, le_rfl, hnone _, .inl rfl⟩
  | wrote v size _ _ hl => exact ⟨_, rfl, by rwa [streamBytes_length], le_rfl, hnone _, .inr rfl⟩
  | writeFailed v size j info _ _ hl hj =>
    exact ⟨_, rfl, by rw [streamBytes_length]; omega, le_rfl, hnone _, .inr rfl⟩
  | writeHangs v m _ _ hl => exact ⟨_, rfl, by rw [streamBytes_length]; omega, le_rfl, hnone _, .inr rfl⟩
  | closed hi => exact ⟨_, rfl, by rw [hi]; rfl, le_rfl, hnone _, .inr rfl⟩
  | read bs size data _ _ hl =>
    exact ⟨[], (List.append_nil _).symm, Nat.zero_le _, hnone _, Nat.add_le_add_left hl _, .inl rfl⟩
  | readFailed bs info _ _ hl | readHangs bs m _ _ _ hl =>
    exact ⟨[], (List.append_nil _).symm, Nat.zero_le _, hnone _, Nat.add_le_add_left hl.le _, .inl rfl⟩

end Sys2Proof.Machine
end

section
/-! PROOFS. Codewords as numbers (43_tbe.md R143, R147, R149), and whole streams of items: written from a new writer, closed,
and read back by a new reader (41_bit_writer.md R99; 42_bit_reader.md R117; 43_tbe.md R148). -/

namespace Sys2Proof.Machine

/-! ### codewords -/

/-- A value below the bound, moved up by `u`, is a number of `k + 1` bits (43_tbe.md R142). -/
theorem add_lt_of_lt_boundOf {k u value : Nat} (h : value < boundOf k u) : value + u < 2 ^ (k + 1) :=
  Nat.add_lt_of_lt_sub h

/-- The first `k` bits of a long codeword are the value's sum with `u`, halved (43_tbe.md R143). -/
theorem codeword_mod_of_long {k u value : Nat} (hlong : ¬ value < u) (hbound : value < boundOf k u) :
    codeword k u value % 2 ^ k = (value + u) / 2 := by
  have hrange := add_lt_of_lt_boundOf hbound
  rw [Nat.two_pow_succ] at hrange
  rw [codeword_low k u value hlong (add_lt_of_lt_boundOf hbound), Nat.shiftRight_one]
  exact Nat.mod_eq_of_lt (by omega)

theorem codeword_lt {k u value : Nat} (hu : u ≤ 2 ^ k) (hbound : value < boundOf k u) :
    codeword k u value < 2 ^ codewordLen k u value := by
  by_cases hshort : value < u
  · rw [codeword, codewordLen, if_pos hshort, if_pos hshort]
    exact hshort.trans_le hu
  · have hrange := add_lt_of_lt_boundOf hbound
    have hbit : (value + u) % 2 * 2 ^ k ≤ 1 * 2 ^ k := Nat.mul_le_mul_right _ (by omega)
    rw [codeword, codewordLen, if_neg hshort, if_neg hshort]
    rw [Nat.two_pow_succ] at hrange ⊢
    omega

/-- Settles O47: the first `k` bits of a long codeword are `value + u` halved, the bit after them is the bit halved away. -/
theorem codewordLayout : Obligations.CodewordLayout := by
  intro k u value _ hu hbound
  refine ⟨codeword_lt hu hbound, fun hshort i _ => ?short, fun hlong => ⟨fun i hi => ?first, ?last⟩⟩
  case short => rw [codeword, if_pos hshort]
  case first =>
    have hbits := congrArg (Nat.testBit · i) (codeword_mod_of_long (Nat.not_lt.2 hlong) hbound)
    simpa [Nat.testBit_mod_two_pow, hi, Nat.testBit_succ] using hbits
  case last =>
    have hbit := codeword_high k u value (Nat.not_lt.2 hlong) (add_lt_of_lt_boundOf hbound)
    have htest := congrArg (Nat.testBit · 0) hbit
    simpa [Nat.testBit_shiftRight] using htest

/-- Settles O50: a short codeword and the first bits of a long one lie on different sides of `u`, and codewords of one length
are equal only for equal values. -/
theorem codewordsArePrefixFree : Obligations.CodewordsArePrefixFree := by
  intro k u v₁ v₂ _ hu hbound₁ hbound₂ hlen hprefix
  have hlt₂ := codeword_lt hu hbound₂
  by_cases hshort₁ : v₁ < u
  · simp only [codewordLen, codeword, if_pos hshort₁] at hprefix
    by_cases hshort₂ : v₂ < u
    · rw [if_pos hshort₂, Nat.mod_eq_of_lt (hshort₂.trans_le hu)] at hprefix
      exact hprefix.symm
    · have hfirst := codeword_mod_of_long hshort₂ hbound₂
      rw [codeword, if_neg hshort₂] at hfirst
      rw [if_neg hshort₂] at hprefix
      omega
  · have hlen₁ : codewordLen k u v₁ = k + 1 := if_neg hshort₁
    by_cases hshort₂ : v₂ < u
    · have hlen₂ : codewordLen k u v₂ = k := if_pos hshort₂
      omega
    · have hlen₂ : codewordLen k u v₂ = k + 1 := if_neg hshort₂
      rw [hlen₂] at hlt₂
      rw [hlen₁, Nat.mod_eq_of_lt hlt₂] at hprefix
      have hhalf : (v₁ + u) / 2 = (v₂ + u) / 2 := by
        rw [← codeword_mod_of_long hshort₁ hbound₁, ← codeword_mod_of_long hshort₂ hbound₂, hprefix]
      have hbit : (v₁ + u) % 2 = (v₂ + u) % 2 := by
        rw [← codeword_high k u v₁ hshort₁ (add_lt_of_lt_boundOf hbound₁),
          ← codeword_high k u v₂ hshort₂ (add_lt_of_lt_boundOf hbound₂), hprefix]
      omega

/-- Settles O49: a TBE.READ that responds `OK` has read the codeword of a value of the alphabet. -/
theorem decodedValuesAreInRange : Obligations.DecodedValuesAreInRange := by
  intro k u s t r h hr hok
  obtain ⟨hdesc, hvalue, -⟩ := exec_tbeRead_ok h hr hok
  exact ⟨hdesc, hvalue⟩

/-! ### one item -/

/-- The bits of an item as a number, its first stream bit at bit 0: the masked value, or the codeword. -/
def Item.code : Item → Nat
  | .raw8 value size => value.toNat % 2 ^ size.toNat
  | .raw32 value size => value.toNat % 2 ^ size.toNat
  | .tbe k u value => codeword k.toNat u.toNat value.toNat

theorem Item.code_lt {W : Width} {x : Item} (h : x.legal W) : x.code < 2 ^ x.bits := by
  cases x with
  | raw8 | raw32 => exact Nat.mod_lt _ (Nat.two_pow_pos _)
  | tbe k u value =>
    obtain ⟨hdesc, hvalue⟩ := h
    obtain ⟨-, -, hu⟩ := (validDescriptor_iff _ _ _).1 hdesc
    exact codeword_lt hu hvalue

/-- The item's write appends the item's bits. -/
theorem exec_put {x : Item} {s : State} (hlegal : x.legal s.params.width) (herr : s.bw.err = false)
    (haccepts : s.sink.accepts (putCount x.bits s)) :
    exec x.put s = .next ((s.wrote x.code x.bits).responded (okResponse 0 0)) := by
  cases x with
  | raw8 value size =>
    rw [Item.code, Item.bits, wrote_congr s _ value.toNat _ (Nat.mod_mod _ _)]
    exact bwWriteCompletes value size s herr hlegal haccepts
  | raw32 value size =>
    rw [Item.code, Item.bits, wrote_congr s _ value.toNat _ (Nat.mod_mod _ _)]
    exact bwWrite32Completes value size s herr hlegal haccepts
  | tbe k u value => exact tbeWriteCompletes k u value s herr hlegal.1 hlegal.2 haccepts

/-- The item's read, where the coming bits are the item's, returns the item's value. -/
theorem exec_get {x : Item} {r : State} {bs : List Byte} (hlegal : x.legal r.params.width) (herr : r.br.err = false)
    (hlen : bs.length = getCount x.bits r) (hdelivers : r.source.delivers bs)
    (hbits : comingBits bs r % 2 ^ x.bits = x.code) :
    exec x.get r = .next ((r.hasRead bs x.bits).responded (okResponse 0 (BitVec.ofNat 64 x.value))) := by
  cases x with
  | raw8 value size =>
    rw [Item.value, ← show _ = value.toNat % 2 ^ size.toNat from hbits]
    exact brReadCompletes size bs r herr hlegal hlen hdelivers
  | raw32 value size =>
    rw [Item.value, ← show _ = value.toNat % 2 ^ size.toNat from hbits]
    exact brRead32Completes size bs r herr hlegal hlen hdelivers
  | tbe k u value =>
    obtain ⟨hdesc, hbound⟩ := hlegal
    obtain ⟨hread_short, hread_long⟩ := tbeReadCompletes k u bs r herr hdesc hdelivers
    simp only [Item.bits, Item.code, Item.value] at hlen hbits ⊢
    by_cases hshort : value.toNat < u.toNat
    · have hbitsLen : codewordLen k.toNat u.toNat value.toNat = k.toNat := if_pos hshort
      rw [hbitsLen] at hlen hbits ⊢
      rw [codeword, if_pos hshort] at hbits
      rw [hbits] at hread_short
      exact hread_short hlen hshort
    · have hbitsLen : codewordLen k.toNat u.toNat value.toNat = k.toNat + 1 := if_neg hshort
      rw [hbitsLen] at hlen hbits ⊢
      have hfirst : comingBits bs r % 2 ^ k.toNat = (value.toNat + u.toNat) / 2 := by
        rw [← codeword_mod_of_long hshort hbound, ← hbits]
        exact (Nat.mod_mod_of_dvd _ (Nat.pow_dvd_pow 2 (Nat.le_succ _))).symm
      have hlast : comingBits bs r / 2 ^ k.toNat % 2 = (value.toNat + u.toNat) % 2 := by
        rw [← codeword_high k.toNat u.toNat value.toNat hshort (add_lt_of_lt_boundOf hbound), ← hbits,
          Nat.shiftRight_eq_div_pow, Nat.pow_succ, Nat.mod_mul_right_div_self]
      have hread := hread_long hlen (by omega)
      have hvalue : 2 * ((value.toNat + u.toNat) / 2) + (value.toNat + u.toNat) % 2 - u.toNat = value.toNat := by omega
      rwa [hfirst, hlast, hvalue] at hread

/-! ### a list of items -/

/-- How many stream bits a list of items takes. -/
def itemsBits (items : List Item) : Nat := (items.map Item.bits).sum

/-- The bits of a list of items as one number, the first item's lowest (20_memory.md R44). -/
def itemsNum : List Item → Nat
  | [] => 0
  | x :: items => x.code + itemsNum items * 2 ^ x.bits

theorem itemsBits_cons (x : Item) (items : List Item) : itemsBits (x :: items) = x.bits + itemsBits items := by
  simp [itemsBits]

theorem itemsNum_cons_mod {W : Width} {x : Item} (h : x.legal W) (items : List Item) :
    itemsNum (x :: items) % 2 ^ x.bits = x.code := by
  rw [itemsNum, Nat.add_mul_mod_self_right, Nat.mod_eq_of_lt (Item.code_lt h)]

theorem itemsNum_cons_shiftRight {W : Width} {x : Item} (h : x.legal W) (items : List Item) :
    itemsNum (x :: items) >>> x.bits = itemsNum items := by
  rw [itemsNum, Nat.shiftRight_eq_div_pow, Nat.add_mul_div_right _ _ (Nat.two_pow_pos _), Nat.div_eq_of_lt (Item.code_lt h),
    Nat.zero_add]

theorem itemsNum_lt {W : Width} {items : List Item} (h : ∀ x ∈ items, x.legal W) :
    itemsNum items < 2 ^ itemsBits items := by
  induction items with
  | nil => exact Nat.one_pos
  | cons x items ih =>
    obtain ⟨hx, hitems⟩ := List.forall_mem_cons.1 h
    have hlt := or_shiftLeft_lt (Item.code_lt hx) (ih hitems)
    rwa [Nat.or_comm, ← Nat.shiftLeft_add_eq_or_of_lt (Item.code_lt hx), Nat.shiftLeft_eq, Nat.add_comm,
      ← itemsBits_cons] at hlt

/-- `s` with the responses `rs` given after its own. -/
def State.withResponses (s : State) (rs : List Response) : State := { s with responses := s.responses ++ rs }

@[simp] theorem withResponses_nil (s : State) : s.withResponses [] = s := by
  simp [State.withResponses]

theorem withResponses_responded (s : State) (r : Response) (rs : List Response) :
    (s.responded r).withResponses rs = s.withResponses (r :: rs) := by
  simp [State.withResponses, State.responded]

/-! ### writing the items and closing the stream -/

/-- The first item and then the others are the whole list, written at once (41_bit_writer.md R97). -/
theorem wrote_items_cons {W : Width} {x : Item} (h : x.legal W) (items : List Item) (s : State) :
    (s.wrote x.code x.bits).wrote (itemsNum items) (itemsBits items) =
      s.wrote (itemsNum (x :: items)) (itemsBits (x :: items)) := by
  have hfirst : x.code % 2 ^ x.bits = itemsNum (x :: items) % 2 ^ x.bits := by
    rw [itemsNum_cons_mod h, Nat.mod_eq_of_lt (Item.code_lt h)]
  rw [wrote_congr s _ _ _ hfirst, ← itemsNum_cons_shiftRight h items, wrote_wrote, ← itemsBits_cons]

/-- The writes of a list of items append its bits, as one write does. -/
theorem execAll_put {items : List Item} {s : State} (hlegal : ∀ x ∈ items, x.legal s.params.width)
    (herr : s.bw.err = false) (haccepts : s.sink.accepts (putCount (itemsBits items) s)) (rest : List Instr) :
    execAll (items.map Item.put ++ rest) s =
      execAll rest ((s.wrote (itemsNum items) (itemsBits items)).withResponses
        (items.map fun _ => okResponse 0 0)) := by
  induction items generalizing s with
  | nil =>
    rw [show itemsBits [] = 0 from rfl, wrote_zero, List.map_nil, List.map_nil, withResponses_nil, List.nil_append]
  | cons x items ih =>
    obtain ⟨hx, hitems⟩ := List.forall_mem_cons.1 hlegal
    rw [itemsBits_cons, putCount_add s x.code, Sink.accepts_add] at haccepts
    obtain ⟨hfirst, hothers⟩ := haccepts
    have hput := exec_put hx herr hfirst
    rw [List.map_cons, List.cons_append, execAll_cons_of_next _ hput,
      ih (s := (s.wrote x.code x.bits).responded (okResponse 0 0)) hitems herr hothers,
      ← wrote_items_cons hx, List.map_cons, ← withResponses_responded]
    rfl

/-- A new writer has no pending bits below those it is given. -/
theorem pendingWith_of_fresh {s : State} (hs : s.bw = UnitRegs.fresh) {v size : Nat} (hv : v < 2 ^ size) :
    pendingWith v size s = v := by
  simp [pendingWith, hs, Nat.mod_eq_of_lt hv]

theorem putCount_of_fresh {s : State} (hs : s.bw = UnitRegs.fresh) (size : Nat) : putCount size s = size / 8 := by
  simp [putCount, hs]

/-- The bytes of a bit string, the last padded with zeros: one more than the whole bytes, if there are bits left. -/
theorem streamBytes_ceil (bits size : Nat) :
    streamBytes bits ((size + 7) / 8) =
      streamBytes bits (size / 8) ++ if 0 < size % 8 then [byteAt bits (8 * (size / 8))] else [] := by
  split
  next hrest =>
    rw [show (size + 7) / 8 = size / 8 + 1 by omega, streamBytes_add]
    simp [streamBytes, byteAt_byteAt_zero]
  next hrest => rw [show (size + 7) / 8 = size / 8 by omega, List.append_nil]

/-- A new writer that is given `size` bits and then closed hands over their bytes and is new again (41_bit_writer.md R99). -/
theorem exec_bwClose_wrote {s : State} (hs : s.bw = UnitRegs.fresh) {v size : Nat} (hv : v < 2 ^ size)
    (haccepts : s.sink.accepts ((size + 7) / 8)) (rs : List Response) :
    ∃ t, exec .bwClose ((s.wrote v size).withResponses rs) = .next t ∧
      t.snk = s.snk ++ streamBytes v ((size + 7) / 8) ∧ t.bw = UnitRegs.fresh := by
  have hpend : (s.wrote v size).bw.pend.toNat = size % 8 := by rw [wrote_pend, hs]; simp
  have hbuf : (s.wrote v size).bw.buf = byteAt v (8 * (size / 8)) := by
    simp only [State.wrote, pendingWith_of_fresh hs hv, putCount_of_fresh hs]
  have hsnk : (s.wrote v size).snk = s.snk ++ streamBytes v (size / 8) := by
    simp only [State.wrote, pendingWith_of_fresh hs hv, putCount_of_fresh hs]
  have hsink : (s.wrote v size).sink = s.sink.skip (size / 8) := by
    simp only [State.wrote, putCount_of_fresh hs]
  obtain ⟨hflush, hempty⟩ := bwCloseCompletes ((s.wrote v size).withResponses rs) (congrArg UnitRegs.err hs)
  rw [streamBytes_ceil]
  by_cases hrest : 0 < size % 8
  · have hlast : (s.wrote v size).sink.answer = .accept := by
      rw [show (size + 7) / 8 = size / 8 + 1 by omega, Sink.accepts_add, ← hsink] at haccepts
      exact haccepts.2.1
    refine ⟨_, hflush (hpend ▸ hrest) hlast, ?_, rfl⟩
    show (s.wrote v size).snk ++ [(s.wrote v size).bw.buf] = _
    rw [hsnk, hbuf, if_pos hrest, List.append_assoc]
  · refine ⟨_, hempty (hpend.trans (by omega)), ?_, rfl⟩
    show (s.wrote v size).snk = _
    rw [hsnk, if_neg hrest, List.append_nil]

/-- Items written from a new writer and closed are their bits' bytes in the sink. -/
theorem execAll_put_close {items : List Item} {s : State} (hlegal : ∀ x ∈ items, x.legal s.params.width)
    (hs : s.bw = UnitRegs.fresh) (haccepts : s.sink.accepts ((itemsBits items + 7) / 8)) :
    ∃ t, execAll (items.map Item.put ++ [.bwClose]) s = .next t ∧
      t.snk = s.snk ++ streamBytes (itemsNum items) ((itemsBits items + 7) / 8) ∧ t.bw = UnitRegs.fresh := by
  have hwhole : s.sink.accepts (putCount (itemsBits items) s) := by
    have hle : itemsBits items / 8 ≤ (itemsBits items + 7) / 8 := Nat.div_le_div_right (Nat.le_add_right _ _)
    obtain ⟨n, hn⟩ := Nat.exists_eq_add_of_le hle
    rw [hn, Sink.accepts_add] at haccepts
    rw [putCount_of_fresh hs]
    exact haccepts.1
  obtain ⟨t, hclose, hsnk, hbw⟩ :=
    exec_bwClose_wrote hs (itemsNum_lt hlegal) haccepts (items.map fun _ => okResponse 0 0)
  refine ⟨t, ?_, hsnk, hbw⟩
  rw [execAll_put hlegal (congrArg UnitRegs.err hs) hwhole, execAll_cons_of_next [] hclose]
  rfl

/-- The bytes of the items, as a number, are the items' bits: the padding is zero. -/
theorem bytesNum_items {W : Width} {items : List Item} (hlegal : ∀ x ∈ items, x.legal W) :
    bytesNum (streamBytes (itemsNum items) ((itemsBits items + 7) / 8)) = itemsNum items := by
  have hle : 2 ^ itemsBits items ≤ 2 ^ (8 * ((itemsBits items + 7) / 8)) := Nat.pow_le_pow_right (by decide) (by omega)
  rw [bytesNum_streamBytes, Nat.mod_eq_of_lt ((itemsNum_lt hlegal).trans_le hle)]

/-- Settles O57: the bytes are the items' bits cut in eights, a number with no bit beyond the items' length. -/
theorem closedStreamHasCeilBytes : Obligations.ClosedStreamHasCeilBytes := by
  intro items s hlegal hs haccepts
  obtain ⟨t, hexec, hsnk, hbw⟩ := execAll_put_close hlegal hs haccepts
  refine ⟨t, _, hexec, hsnk, streamBytes_length _ _, ?_, hbw⟩
  rw [bytesNum_items hlegal]
  exact itemsNum_lt hlegal

/-! ### reading the items back -/

/-- Where the coming bits are those of the items, reading them item by item is one read of all of them, and each returns its
item's value. -/
theorem execAll_get {items : List Item} {r : State} {bs : List Byte} (hlegal : ∀ x ∈ items, x.legal r.params.width)
    (herr : r.br.err = false) (hlen : bs.length = getCount (itemsBits items) r) (hdelivers : r.source.delivers bs)
    (hbits : comingBits bs r % 2 ^ itemsBits items = itemsNum items) :
    execAll (items.map Item.get) r = .next ((r.hasRead bs (itemsBits items)).withResponses
      (items.map fun x => okResponse 0 (BitVec.ofNat 64 x.value))) := by
  induction items generalizing r bs with
  | nil =>
    have hnil : bs = [] := List.length_eq_zero_iff.1 (hlen.trans (getCount_zero r))
    rw [hnil, show itemsBits [] = 0 from rfl, hasRead_zero]
    exact congrArg _ (withResponses_nil r).symm
  | cons x items ih =>
    obtain ⟨hx, hitems⟩ := List.forall_mem_cons.1 hlegal
    rw [itemsBits_cons] at hlen hbits ⊢
    have hle : getCount x.bits r ≤ bs.length := by
      rw [hlen]
      simp only [getCount]
      omega
    obtain ⟨xs, ys, rfl, hxs⟩ := exists_append_of_le_length hle
    rw [Source.delivers_append] at hdelivers
    have hys : ys.length = getCount (itemsBits items) (r.hasRead xs x.bits) := by
      rw [getCount_add r xs _ _ hxs, List.length_append] at hlen
      exact Nat.add_left_cancel hlen
    have hfirst : comingBits xs r % 2 ^ x.bits = x.code := by
      rw [← itemsNum_cons_mod hx items, ← hbits, Nat.mod_mod_of_dvd _ (Nat.pow_dvd_pow 2 (Nat.le_add_right _ _)),
        comingBits_append_mod xs ys r _ (hxs ▸ getCount_le r x.bits)]
    have hothers : comingBits ys (r.hasRead xs x.bits) % 2 ^ itemsBits items = itemsNum items := by
      rw [← itemsNum_cons_shiftRight hx items, ← hbits, comingBits_hasRead r xs ys _ hxs, Nat.shiftRight_eq_div_pow,
        Nat.shiftRight_eq_div_pow, Nat.pow_add, Nat.mod_mul_right_div_self]
    have hget := exec_get hx herr hxs hdelivers.1 hfirst
    rw [List.map_cons, execAll_cons_of_next _ hget,
      ih (r := (r.hasRead xs x.bits).responded _) hitems herr hys hdelivers.2 hothers, List.map_cons,
      ← hasRead_hasRead r xs ys _ _ hxs, ← withResponses_responded]
    rfl

/-- Settles O56: the bytes the sink got are the coming bits of a new reader. -/
theorem writtenItemsReadBack : Obligations.WrittenItemsReadBack := by
  intro items s hlegal hs haccepts
  obtain ⟨t, hexec, hsnk, -⟩ := execAll_put_close hlegal hs haccepts
  refine ⟨t, _, hexec, hsnk, fun r hwidth hr hdelivers => ?_⟩
  have hlen : (streamBytes (itemsNum items) ((itemsBits items + 7) / 8)).length = getCount (itemsBits items) r := by
    rw [streamBytes_length, getCount, hr]
    rfl
  have hbits : comingBits (streamBytes (itemsNum items) ((itemsBits items + 7) / 8)) r % 2 ^ itemsBits items =
      itemsNum items := by
    rw [comingBits, bytesNum_items hlegal, hr]
    simpa using Nat.mod_eq_of_lt (itemsNum_lt hlegal)
  have hread := execAll_get (hwidth ▸ hlegal) (congrArg UnitRegs.err hr) hlen hdelivers hbits
  exact ⟨_, hread, rfl, rfl⟩

end Sys2Proof.Machine
end

section
/-! PROOFS. The order of the checks of a command (60_exceptions.md R179): where no clean fault of the table applies, the
command makes its transfers, and responds `OK` unless one of them fails or is never answered. -/

namespace Sys2Proof.Machine

/-- How a command ends that meets no clean fault: with `OK`, or with a transfer of its unit that fails or is never answered
(60_exceptions.md R179, R187). -/
def EndsWithoutCleanFault (i : Instr) (s t : State) : Prop :=
  (∃ rk data, t.responses = s.responses ++ [okResponse rk data]) ∨
  (∃ info, t.responses = s.responses ++ [faultResponse .sinkFail info] ∧ t.bw.err = true ∧
    runsOnWriter i = true ∧ ∃ j, (s.sink.skip j).answer = .fail info) ∨
  (∃ info, t.responses = s.responses ++ [faultResponse .sourceFail info] ∧ t.br.err = true ∧
    runsOnReader i = true ∧ ∃ j, (s.source.skip j).answer = .fail info) ∨
  (t.responses = s.responses ∧ t.waiting = some .sink ∧ runsOnWriter i = true ∧
    ∃ j, s.sink.accepts j ∧ (s.sink.skip j).answer = .silent) ∨
  (t.responses = s.responses ∧ t.waiting = some .source ∧ runsOnReader i = true ∧
    ∃ bs, s.source.delivers bs ∧ (s.source.skip bs.length).answer = .silent)

section
variable {i : Instr} {s t : State}

theorem ends_of_ok {rk : BitVec 8} {data : Data} (h : t.responses = s.responses ++ [okResponse rk data]) :
    EndsWithoutCleanFault i s t := .inl ⟨rk, data, h⟩

theorem ends_of_sinkFail {info j : Nat} (hi : runsOnWriter i = true) (hf : (s.sink.skip j).answer = .fail info)
    (h : t.responses = s.responses ++ [faultResponse .sinkFail info]) (herr : t.bw.err = true) :
    EndsWithoutCleanFault i s t := .inr (.inl ⟨info, h, herr, hi, j, hf⟩)

theorem ends_of_sourceFail {info j : Nat} (hi : runsOnReader i = true) (hf : (s.source.skip j).answer = .fail info)
    (h : t.responses = s.responses ++ [faultResponse .sourceFail info]) (herr : t.br.err = true) :
    EndsWithoutCleanFault i s t := .inr (.inr (.inl ⟨info, h, herr, hi, j, hf⟩))

theorem ends_of_sinkSilent {j : Nat} (hi : runsOnWriter i = true) (ha : s.sink.accepts j)
    (hf : (s.sink.skip j).answer = .silent) (h : t.responses = s.responses) (hw : t.waiting = some .sink) :
    EndsWithoutCleanFault i s t := .inr (.inr (.inr (.inl ⟨h, hw, hi, j, ha, hf⟩)))

theorem ends_of_sourceSilent {bs : List Byte} (hi : runsOnReader i = true) (hd : s.source.delivers bs)
    (hf : (s.source.skip bs.length).answer = .silent) (h : t.responses = s.responses) (hw : t.waiting = some .source) :
    EndsWithoutCleanFault i s t := .inr (.inr (.inr (.inr ⟨h, hw, hi, bs, hd, hf⟩)))
end

/-! ### the procedures of the units -/

section
variable {i : Instr}

theorem ends_of_writeBits (hi : runsOnWriter i = true) (v size : Nat) (s : State) :
    ∃ t, finish (writeBits v size s) (fun _ => noResult) = .next t ∧ EndsWithoutCleanFault i s t := by
  rcases writeBits_cases v size s with ⟨-, e⟩ | ⟨m, j, -, -, -, ha, ⟨info, hf, e⟩ | ⟨hf, e⟩⟩ <;> rw [e]
  · exact ⟨_, finish_ok .., ends_of_ok rfl⟩
  · exact ⟨_, finish_raise .., ends_of_sinkFail hi hf rfl rfl⟩
  · exact ⟨_, finish_hang .., ends_of_sinkSilent hi ha hf rfl rfl⟩

theorem ends_of_writeCodeword (hi : runsOnWriter i = true) {k u value : Nat} (hr : value + u < 2 ^ (k + 1))
    (s : State) :
    ∃ t, finish (writeCodeword k u value s) (fun _ => noResult) = .next t ∧ EndsWithoutCleanFault i s t := by
  rcases writeCodeword_cases k u value s hr with ⟨-, e⟩ | ⟨m, j, -, -, -, ha, ⟨info, hf, e⟩ | ⟨hf, e⟩⟩ <;> rw [e]
  · exact ⟨_, finish_ok .., ends_of_ok rfl⟩
  · exact ⟨_, finish_raise .., ends_of_sinkFail hi hf rfl rfl⟩
  · exact ⟨_, finish_hang .., ends_of_sinkSilent hi ha hf rfl rfl⟩

theorem ends_of_readBits (hi : runsOnReader i = true) (size : Nat) (s : State) :
    ∃ t, finish (readBits size s) dataResult = .next t ∧ EndsWithoutCleanFault i s t := by
  obtain ⟨bs, hd, ⟨-, e⟩ | ⟨-, m, -, -, ⟨info, hf, e⟩ | ⟨hf, e⟩⟩⟩ := readBits_cases size s <;> rw [e]
  · exact ⟨_, finish_ok .., ends_of_ok rfl⟩
  · exact ⟨_, finish_raise .., ends_of_sourceFail hi hf rfl rfl⟩
  · exact ⟨_, finish_hang .., ends_of_sourceSilent hi hd hf rfl rfl⟩

theorem ends_of_readCodeword (hi : runsOnReader i = true) (k u : Nat) (s : State) :
    ∃ t, finish (readCodeword k u s) dataResult = .next t ∧ EndsWithoutCleanFault i s t := by
  obtain ⟨bs, hd, ⟨-, -, e⟩ | ⟨-, -, e⟩ | ⟨-, ⟨info, hf, e⟩ | ⟨hf, m, -, e⟩⟩⟩ := readCodeword_cases k u s <;>
    rw [e]
  · exact ⟨_, finish_ok .., ends_of_ok rfl⟩
  · exact ⟨_, finish_ok .., ends_of_ok rfl⟩
  · exact ⟨_, finish_raise .., ends_of_sourceFail hi hf rfl rfl⟩
  · exact ⟨_, finish_hang .., ends_of_sourceSilent hi hd hf rfl rfl⟩
end

theorem ends_of_bwClose {s : State} (herr : s.bw.err = false) :
    ∃ t, exec .bwClose s = .next t ∧ EndsWithoutCleanFault .bwClose s t := by
  rw [exec_bwClose herr]
  rcases Nat.eq_zero_or_pos s.bw.pend.toNat with hpend | hpend
  · rw [flushWriter_of_pend_zero hpend]
    exact ⟨_, finish_ok .., ends_of_ok rfl⟩
  · rw [flushWriter_of_pend_pos hpend]
    cases ha : s.sink.answer with
    | accept =>
      rw [sinkPut_accept _ s ha]
      exact ⟨_, finish_ok .., ends_of_ok rfl⟩
    | fail info =>
      rw [sinkPut_fail _ s info ha]
      exact ⟨_, finish_raise .., ends_of_sinkFail (j := 0) rfl ha rfl rfl⟩
    | silent =>
      rw [sinkPut_silent _ s ha]
      exact ⟨_, finish_hang .., ends_of_sinkSilent (j := 0) rfl trivial ha rfl rfl⟩

/-! ### the commands -/

/-- The table names no fault exactly if the check passes and so do those after it. -/
theorem check_eq_none_iff {c : Prop} [Decidable c] {fault : Status} {checks : Option Status} :
    (if c then some fault else checks) = none ↔ ¬ c ∧ checks = none := by
  by_cases hc : c <;> simp [hc]

/-- A command that meets no clean fault passes all its checks and goes on to its transfers. -/
theorem exec_of_no_cleanFault {i : Instr} {s : State} (h : cleanFault i s = none) :
    ∃ t, exec i s = .next t ∧ EndsWithoutCleanFault i s t := by
  obtain ⟨hwf, h⟩ := check_eq_none_iff.1 h
  cases i with
  | bwWrite value size =>
    obtain ⟨herr, hsize⟩ : s.bw.err = false ∧ size.toNat ≤ 8 := by simpa [check_eq_none_iff] using h
    rw [exec_bwWrite value size s herr hsize]
    exact ends_of_writeBits rfl _ _ s
  | bwWrite32 value size =>
    obtain ⟨herr, hsize⟩ : s.bw.err = false ∧ size.toNat ≤ 32 := by simpa [check_eq_none_iff] using h
    rw [exec_bwWrite32 value size s herr hsize]
    exact ends_of_writeBits rfl _ _ s
  | bwClose => exact ends_of_bwClose (by simpa [check_eq_none_iff] using h)
  | brRead size =>
    obtain ⟨herr, hsize⟩ : s.br.err = false ∧ size.toNat ≤ 8 := by simpa [check_eq_none_iff] using h
    rw [exec_brRead size s herr hsize]
    exact ends_of_readBits rfl _ s
  | brRead32 size =>
    obtain ⟨herr, hsize⟩ : s.br.err = false ∧ size.toNat ≤ 32 := by simpa [check_eq_none_iff] using h
    rw [exec_brRead32 size s herr hsize]
    exact ends_of_readBits rfl _ s
  | brClose =>
    have herr : s.br.err = false := by simpa [check_eq_none_iff] using h
    obtain ⟨-, -, hclose⟩ := initAndReaderCloseComplete s
    exact ⟨_, hclose herr, ends_of_ok rfl⟩
  | tbeDesc n =>
    have hfits : fitsWidth s.params.width n = true := by simpa [Instr.wellFormed] using hwf
    have hn : n.toNat ≠ 0 := by simpa [check_eq_none_iff] using h
    obtain ⟨hlo, hhi⟩ := floorLog2_bounds (Nat.one_le_iff_ne_zero.2 hn)
    exact ⟨_, exec_tbeDesc_of_bounds ((fitsWidth_iff _ n).1 hfits) hlo hhi, ends_of_ok rfl⟩
  | tbeWrite k u value =>
    obtain ⟨herr, hdesc, hvalue⟩ : s.bw.err = false ∧ validDescriptor s.params.width k.toNat u.toNat = true ∧
        value.toNat < boundOf k.toNat u.toNat := by
      simpa [check_eq_none_iff] using h
    rw [exec_tbeWrite k u value s herr hdesc hvalue]
    exact ends_of_writeCodeword rfl (desc_fits _ _ _ _ hdesc hvalue).2.2 s
  | tbeRead k u =>
    obtain ⟨herr, hdesc⟩ : s.br.err = false ∧ validDescriptor s.params.width k.toNat u.toNat = true := by
      simpa [check_eq_none_iff] using h
    rw [exec_tbeRead k u s herr hdesc]
    exact ends_of_readCodeword rfl _ _ s
  | chunk size index =>
    obtain ⟨-, -, -, -, hchunk⟩ := sizeOutOfRangeIsRefused size s
    obtain ⟨data, hexec⟩ := hchunk index
    exact ⟨_, hexec, ends_of_ok rfl⟩
  | status | bwInit | brInit => exact ⟨_, rfl, ends_of_ok rfl⟩

/-- Settles O19: the table's fault is the response, and where it names none the transfers decide. -/
theorem faultsComeInTheFixedOrder : Obligations.FaultsComeInTheFixedOrder :=
  fun _ _ => ⟨fun _ => exec_of_cleanFault, exec_of_no_cleanFault⟩

end Sys2Proof.Machine
end

section
/-! PROOFS. The units are independent (10_state.md section 4; 20_memory.md R56; 44_system.md R162): a change of the writer
unit and its stream passes through every command of the reader and of no unit, and the other way round. -/

namespace Sys2Proof.Machine

/-! ### changes of state that a procedure does not notice -/

/-- The state a procedure ends in, changed. -/
def Res.map {α : Type} (f : State → State) : Res α → Res α
  | .ok a s => .ok a (f s)
  | .raise st info s => .raise st info (f s)
  | .hang p s => .hang p (f s)

/-- The next state of a command, changed. -/
def mapNext (f : State → State) : Host.Outcome State Fault Refusal → Host.Outcome State Fault Refusal
  | .next s => .next (f s)
  | .fault r => .fault r
  | .refused r => .refused r

/-- The procedure `p` neither sees nor undoes the change `f` of the state. -/
def Ignores {α : Type} (f : State → State) (p : State → Res α) : Prop := ∀ s, p (f s) = (p s).map f

section
variable {α β : Type} {f : State → State}

theorem ignores_bind {p : State → Res α} {q : α → State → Res β} (hp : Ignores f p) (hq : ∀ a, Ignores f (q a)) :
    Ignores f fun s => (p s).bind q := by
  intro s
  show (p (f s)).bind q = ((p s).bind q).map f
  rw [hp s]
  cases p s with
  | ok a t => exact hq a t
  | raise | hang => rfl

theorem ignores_ite {c : Prop} [Decidable c] {p q : State → Res α} (hp : Ignores f p) (hq : Ignores f q) :
    Ignores f fun s => if c then p s else q s := by
  intro s
  by_cases hc : c
  · simpa only [if_pos hc] using hp s
  · simpa only [if_neg hc] using hq s

theorem ignores_ok (a : α) : Ignores f (Res.ok a) := fun _ => rfl

/-- A change that the end of a command passes through: it touches no parameter, no response and no wait. -/
structure IsFrame (f : State → State) : Prop where
  params : ∀ s, (f s).params = s.params
  responded : ∀ r s, f (s.responded r) = (f s).responded r
  suspend : ∀ p s, f (suspend p s) = suspend p (f s)

theorem finish_ignores (hf : IsFrame f) {p : State → Res α} (hp : Ignores f p) (result : α → Result) (s : State) :
    finish (p (f s)) result = mapNext f (finish (p s) result) := by
  rw [hp s]
  cases p s with
  | ok a t => exact congrArg _ (hf.responded _ t).symm
  | raise st info t => exact congrArg _ (hf.responded _ t).symm
  | hang p t => exact congrArg _ (hf.suspend p t).symm

theorem next_responded (hf : IsFrame f) (r : Response) (s : State) :
    .next ((f s).responded r) = mapNext f (.next (s.responded r)) :=
  congrArg _ (hf.responded r s).symm

theorem ite_mapNext {c : Prop} [Decidable c] {a a' b b' : Host.Outcome State Fault Refusal} (ha : a = mapNext f a')
    (hb : b = mapNext f b') : (if c then a else b) = mapNext f (if c then a' else b') := by
  rw [ha, hb, apply_ite (mapNext f)]

/-! ### the commands of no unit -/

theorem exec_tbeDesc_ignores (hf : IsFrame f) (n : Data) (s : State) :
    exec (.tbeDesc n) (f s) = mapNext f (exec (.tbeDesc n) s) := by
  show execTbeDesc n (f s) = mapNext f (execTbeDesc n s)
  rw [execTbeDesc, hf.params]
  exact ite_mapNext (next_responded hf _ s) (ite_mapNext (next_responded hf _ s) (next_responded hf _ s))

theorem exec_chunk_ignores (hf : IsFrame f) (size index : Size) (s : State) :
    exec (.chunk size index) (f s) = mapNext f (exec (.chunk size index) s) :=
  ite_mapNext (next_responded hf _ s) (next_responded hf _ s)
end

/-! ### the reader ignores the writer -/

/-- `s` with another writer unit and sink stream. -/
def State.withWriter (r : UnitRegs) (bytes : List Byte) (k : Sink) (s : State) : State :=
  { s with bw := r, snk := bytes, sink := k }

section
variable {r : UnitRegs} {bytes : List Byte} {k : Sink}

theorem withWriter_isFrame : IsFrame (State.withWriter r bytes k) := ⟨fun _ => rfl, fun _ _ => rfl, fun _ _ => rfl⟩

theorem sourceGet_ignores_writer : Ignores (State.withWriter r bytes k) sourceGet := by
  intro s
  cases ha : s.source.answer with
  | byte b => rw [sourceGet_byte s b ha]; exact sourceGet_byte _ b ha
  | fail info => rw [sourceGet_fail s info ha]; exact sourceGet_fail _ info ha
  | silent => rw [sourceGet_silent s ha]; exact sourceGet_silent _ ha

theorem read8_ignores_writer (size : Nat) : Ignores (State.withWriter r bytes k) (read8 size) := fun s =>
  ignores_ite (c := s.br.pend.toNat < size)
    (ignores_bind sourceGet_ignores_writer
      (q := fun (byte : Byte) t =>
        takeBits (s.br.buf.toNat ||| (byte.toNat <<< s.br.pend.toNat)) (s.br.pend.toNat + 8) size t) fun _ _ => rfl)
    (q := takeBits s.br.buf.toNat s.br.pend.toNat size) (fun _ => rfl) s

theorem readChunks_ignores_writer (v : Nat) (cs : List Chunk) : Ignores (State.withWriter r bytes k) (readChunks v cs) := by
  induction cs generalizing v with
  | nil => exact ignores_ok v
  | cons c cs ih => exact ignores_bind (read8_ignores_writer _) fun b => ih _

theorem readBits_ignores_writer (size : Nat) : Ignores (State.withWriter r bytes k) (readBits size) :=
  readChunks_ignores_writer 0 _

theorem readCodeword_ignores_writer (j u : Nat) : Ignores (State.withWriter r bytes k) (readCodeword j u) :=
  ignores_bind (readBits_ignores_writer j) fun _ =>
    ignores_ite (ignores_ok _) (ignores_bind (read8_ignores_writer 1) fun _ => ignores_ok _)

/-- A command that does not run on the writer, but for STATUS, ignores the writer unit and the sink stream. -/
theorem exec_ignores_writer {i : Instr} (hi : runsOnWriter i = false) (hstatus : i ≠ .status) (s : State) :
    exec i (s.withWriter r bytes k) = mapNext (State.withWriter r bytes k) (exec i s) := by
  have hf : IsFrame (State.withWriter r bytes k) := withWriter_isFrame
  cases i with
  | brRead size =>
    exact ite_mapNext (next_responded hf _ s) (ite_mapNext (next_responded hf _ s)
      (finish_ignores hf (read8_ignores_writer _) _ s))
  | brRead32 size =>
    exact ite_mapNext (next_responded hf _ s) (ite_mapNext (next_responded hf _ s)
      (finish_ignores hf (readBits_ignores_writer _) _ s))
  | brClose => exact ite_mapNext (next_responded hf _ s) (next_responded hf _ (setReader 0 0 s))
  | tbeDesc n => exact exec_tbeDesc_ignores hf n s
  | tbeRead j u =>
    exact ite_mapNext (next_responded hf _ s) (ite_mapNext (next_responded hf _ s) (ite_mapNext (next_responded hf _ s)
      (finish_ignores hf (readCodeword_ignores_writer _ _) _ s)))
  | chunk size index => exact exec_chunk_ignores hf size index s
  | brInit => rfl
  | status => exact absurd rfl hstatus
  | bwWrite | bwWrite32 | bwClose | tbeWrite | bwInit => exact nomatch hi
end

/-! ### the writer ignores the reader -/

/-- `s` with another reader unit and source stream. -/
def State.withReader (r : UnitRegs) (n : Nat) (k : Source) (s : State) : State :=
  { s with br := r, spos := n, source := k }

section
variable {r : UnitRegs} {n : Nat} {k : Source}

theorem withReader_isFrame : IsFrame (State.withReader r n k) := ⟨fun _ => rfl, fun _ _ => rfl, fun _ _ => rfl⟩

theorem sinkPut_ignores_reader (b : Byte) : Ignores (State.withReader r n k) (sinkPut b) := by
  intro s
  cases ha : s.sink.answer with
  | accept => rw [sinkPut_accept b s ha]; exact sinkPut_accept b _ ha
  | fail info => rw [sinkPut_fail b s info ha]; exact sinkPut_fail b _ info ha
  | silent => rw [sinkPut_silent b s ha]; exact sinkPut_silent b _ ha

theorem write8_ignores_reader (v : Byte) (size : Nat) : Ignores (State.withReader r n k) (write8 v size) := by
  intro s
  rw [write8_eq, write8_eq]
  exact ignores_ite (c := 8 ≤ s.bw.pend.toNat + size)
    (ignores_bind (sinkPut_ignores_reader _)
      (q := fun _ t => .ok () (setWriter (pendingWith v.toNat size s >>> 8) (s.bw.pend.toNat + size - 8) t)) fun _ _ => rfl)
    (q := fun t => .ok () (setWriter (pendingWith v.toNat size s) (s.bw.pend.toNat + size) t)) (fun _ => rfl) s

theorem writeChunks_ignores_reader (v : Nat) (cs : List Chunk) : Ignores (State.withReader r n k) (writeChunks v cs) := by
  induction cs with
  | nil => exact ignores_ok ()
  | cons c cs ih => exact ignores_bind (write8_ignores_reader _ _) fun _ => ih

theorem writeBits_ignores_reader (v size : Nat) : Ignores (State.withReader r n k) (writeBits v size) :=
  writeChunks_ignores_reader v _

theorem writeCodeword_ignores_reader (j u value : Nat) : Ignores (State.withReader r n k) (writeCodeword j u value) :=
  ignores_ite (writeBits_ignores_reader value j)
    (ignores_bind (writeBits_ignores_reader _ j) fun _ => write8_ignores_reader _ 1)

theorem flushWriter_ignores_reader : Ignores (State.withReader r n k) flushWriter := fun s =>
  ignores_ite (c := s.bw.pend.toNat > 0) (sinkPut_ignores_reader s.bw.buf) (ignores_ok ()) s

/-- A command that does not run on the reader, but for STATUS, ignores the reader unit and the source stream. -/
theorem exec_ignores_reader {i : Instr} (hi : runsOnReader i = false) (hstatus : i ≠ .status) (s : State) :
    exec i (s.withReader r n k) = mapNext (State.withReader r n k) (exec i s) := by
  have hf : IsFrame (State.withReader r n k) := withReader_isFrame
  cases i with
  | bwWrite value size =>
    exact ite_mapNext (next_responded hf _ s) (ite_mapNext (next_responded hf _ s)
      (finish_ignores hf (write8_ignores_reader _ _) _ s))
  | bwWrite32 value size =>
    exact ite_mapNext (next_responded hf _ s) (ite_mapNext (next_responded hf _ s)
      (finish_ignores hf (writeBits_ignores_reader _ _) _ s))
  | bwClose =>
    exact ite_mapNext (next_responded hf _ s)
      (finish_ignores hf (ignores_bind flushWriter_ignores_reader
        (q := fun _ t => .ok () (setWriter 0 0 t)) fun _ _ => rfl) _ s)
  | tbeDesc n => exact exec_tbeDesc_ignores hf n s
  | tbeWrite j u value =>
    exact ite_mapNext (next_responded hf _ s) (ite_mapNext (next_responded hf _ s) (ite_mapNext (next_responded hf _ s)
      (ite_mapNext (next_responded hf _ s) (finish_ignores hf (writeCodeword_ignores_reader _ _ _) _ s))))
  | chunk size index => exact exec_chunk_ignores hf size index s
  | bwInit => rfl
  | status => exact absurd rfl hstatus
  | brRead | brRead32 | brClose | tbeRead | brInit => exact nomatch hi
end

/-! ### what a command leaves alone -/

theorem effect_leaves_writer {i : Instr} {s t : State} (h : Effect i s t) (hi : runsOnWriter i = false) :
    t.bw = s.bw ∧ t.snk = s.snk ∧ t.sink = s.sink := by
  cases h with
  | refused | answered | read | readFailed | readHangs | readerNew => exact ⟨rfl, rfl, rfl⟩
  | wrote _ _ h | writeFailed _ _ _ _ h | writeHangs _ _ h | writerNew h => exact absurd (h.symm.trans hi) (by decide)
  | closed h | closeFailed _ h | closeHangs h =>
    rw [h] at hi
    exact nomatch hi

theorem effect_leaves_reader {i : Instr} {s t : State} (h : Effect i s t) (hi : runsOnReader i = false) :
    t.br = s.br ∧ t.spos = s.spos ∧ t.source = s.source := by
  cases h with
  | refused | answered | wrote | writeFailed | writeHangs | closed | closeFailed | closeHangs | writerNew =>
    exact ⟨rfl, rfl, rfl⟩
  | read _ _ _ h | readFailed _ _ h | readHangs _ _ h | readerNew h => exact absurd (h.symm.trans hi) (by decide)

/-- Settles O14: off a unit, a command's effect is none of the unit's, and a change of the unit passes through the command. -/
theorem unitsAreIndependent : Obligations.UnitsAreIndependent := by
  intro i s t h
  refine ⟨fun hi => ?writer, fun hi => ?reader⟩
  case writer =>
    obtain ⟨hbw, hsnk, hsink⟩ := effect_leaves_writer (exec_cases i s t h) hi
    refine ⟨hbw, hsnk, hsink, fun hstatus r bytes k => ?_⟩
    have hignores := exec_ignores_writer (r := r) (bytes := bytes) (k := k) hi hstatus s
    rw [h] at hignores
    exact hignores
  case reader =>
    obtain ⟨hbr, hspos, hsource⟩ := effect_leaves_reader (exec_cases i s t h) hi
    refine ⟨hbr, hspos, hsource, fun hstatus r n k => ?_⟩
    have hignores := exec_ignores_reader (r := r) (n := n) (k := k) hi hstatus s
    rw [h] at hignores
    exact hignores

end Sys2Proof.Machine
end
